-- ==== Sys2Proof/Word.lean ====
section
/-! DEFINITION. The word types of the SA/PWM block: the data register's width and the two selection words. -/

namespace Sys2Proof

/-- `W`, the width in bits of `PW` and `rem` (R7: the spec takes 16, its decision D1; log entry 6). -/
abbrev Width : Nat := 16

/-- A `W`-bit register, read as signed two's complement by `BitVec.toInt` (R7, R16, R24). -/
abbrev Word := BitVec Width

/-- A one-bit line, latch or parameter; `true` is level 1 (R6, R15). -/
abbrev Level := Bool

/-- The stimulus word `STIM3` = `{rst, edge, dir}` (R52). -/
abbrev Stim3 := BitVec 3

/-- The selection word `SEL7` = `{ph, tick_pend, step_pend, inc, wnz, ge, gt}` (R53). -/
abbrev Sel7 := BitVec 7

/-- The `W`-bit register contents that stand for an integer; exact for every integer of the signed range (R66). -/
def toWord (z : Int) : Word := BitVec.ofInt Width z

/-- The least value of the signed `W`-bit range, `-2^(W-1)` (R7). -/
def minSigned : Int := -(2 ^ (Width - 1))

/-- The greatest value of the signed `W`-bit range, `2^(W-1) - 1` (R7). -/
def maxSigned : Int := 2 ^ (Width - 1) - 1

end Sys2Proof
end

