-- ==== Sys2Proof/Config.lean ====
section
/-! DEFINITION. The implementation parameters of R7 to R11, the constants derived from them, the spec's example
configuration `CFG_EX`, and the values the spec leaves open as constants with no body. -/

namespace Sys2Proof

/-- `HOME_POLARITY` (R9): which extreme is the home extreme. -/
inductive HomePolarity where
  | homeAtMin
  | homeAtMax
  deriving DecidableEq, Repr, Inhabited

/-- `TRAVEL_MODE` (R10): accepted, without effect on any rule. -/
inductive TravelMode where
  | limitedRange
  | retainReference
  deriving DecidableEq, Repr, Inhabited

/-- `STEP_EDGE` (R11): which transition of `step_in` qualifies. -/
inductive StepEdge where
  | falling
  | rising
  deriving DecidableEq, Repr, Inhabited

/-- The two orders in which simultaneous requests may be served (R98). -/
inductive Priority where
  | stepFirst
  | tickFirst
  deriving DecidableEq, Repr, Inhabited

/-- `Config`, the record of every implementation parameter (R7 to R11): an argument of every operation and of the step
relation, and no part of any state (R12, R30; log entry 1). -/
structure Config where
  /-- `PWM_MIN` (R8) -/
  pwmMin : Int
  /-- `PWM_MAX` (R8) -/
  pwmMax : Int
  /-- `PWM_RESOLUTION`, written `RES` (R8) -/
  resolution : Int
  /-- `HOME_POLARITY` (R9) -/
  homePolarity : HomePolarity
  /-- `TRAVEL_MODE` (R10) -/
  travelMode : TravelMode
  /-- `STEP_EDGE` (R11) -/
  stepEdge : StepEdge
  /-- `DIR_DEC_LEVEL` (R11): the `dir_in` level that means decrement -/
  dirDecLevel : Level
  /-- `HOME_LEVEL` (R11): the `home_out` level that means homed -/
  homeLevel : Level
  /-- `PERIOD` (R11), a natural number of units (log entry 11) -/
  period : Nat
  /-- `CHUNK` (R11), a natural number of units (log entry 11) -/
  chunk : Nat
  /-- `PULSE_OFFSET` (R11): 0 in the hardware specified, kept a parameter (log entry 16) -/
  pulseOffset : Int
  /-- `PULSE_TOL` (R11): the tolerance of a measured pulse; no operation reads it -/
  pulseTol : Int
  deriving DecidableEq, Repr

/-- `SERVO_ACTIVE` = 1, the level of `servo_out` during a pulse (R11, R50). -/
def servoActive : Level := true

/-- `INACTIVE` = 0, the level of `servo_out` between pulses (R50). -/
def servoInactive : Level := false

/-- `HOME_VALUE` (R9). -/
def Config.homeValue (c : Config) : Int :=
  match c.homePolarity with
  | .homeAtMin => c.pwmMin
  | .homeAtMax => c.pwmMax

/-- `SIGNAL_HOME` (R11, R51). -/
def Config.signalHome (c : Config) : Level := c.homeLevel

/-- `SIGNAL_NOT_HOME` (R11, R51). -/
def Config.signalNotHome (c : Config) : Level := !c.homeLevel

/-- The level the spec leaves symbolic in `CFG_EX` (R11); a free value (log entry 3). -/
opaque Config.exampleHomeLevel : Level

/-- The travel mode `CFG_EX` does not name (R10, R11); a free value (log entry 3). -/
opaque Config.exampleTravelMode : TravelMode

/-- Which request wins the `n`-th arbitration (R98: both orders admitted); a free value (log entry 5). -/
opaque Config.freePriority : Nat → Priority

/-- `CFG_EX`, the spec's example configuration (R8, R9, R11). -/
def Config.cfgEx : Config where
  pwmMin := 900
  pwmMax := 1560
  resolution := 10
  homePolarity := .homeAtMin
  travelMode := Config.exampleTravelMode
  stepEdge := .falling
  dirDecLevel := false
  homeLevel := Config.exampleHomeLevel
  period := 20000
  chunk := 100
  pulseOffset := 0
  pulseTol := 1

/-- The configuration the machine handed to the host is built with; "any change requires rebuilding" (R12; log
entry 2). -/
def Config.built : Config := Config.cfgEx

end Sys2Proof
end

