-- ==== Sys2Proof/Syntax.lean ====
section
/-! DEFINITION. The operations of the SA/PWM block: one constructor for each row of the opcode table (R5, R58). -/

namespace Sys2Proof

/-- The rows of the opcode table. No operation has an immediate or a register field (R55), and the one bit of
`EDGE` is split into two rows. -/
inductive Instr where
  /-- `RESET` (R111), agent `ENV` -/
  | reset
  /-- `EDGE(0)` (R63), agent `ENV` -/
  | edge0
  /-- `EDGE(1)` (R63), agent `ENV` -/
  | edge1
  /-- `STEP_DEC` (R64), agent `EXEC` -/
  | stepDec
  /-- `STEP_INC` (R65), agent `EXEC` -/
  | stepInc
  /-- `PULSE_START` (R79), agent `EXEC` -/
  | pulseStart
  /-- `TIME.idle`: `TIME` (R77) taken with `phase = IDLE`, agent `CLK` -/
  | timeIdle
  /-- `TIME.wait`: `TIME` (R77) taken with `phase = HOLD`, agent `CLK` -/
  | timeWait
  /-- `HOLD_CHUNK` (R80), agent `EXEC` -/
  | holdChunk
  /-- `HOLD_UNIT` (R81), agent `EXEC` -/
  | holdUnit
  /-- `PULSE_END` (R82), agent `EXEC` -/
  | pulseEnd
  /-- `RESERVED_UNREACHABLE`: the pattern of R56 (a), no operation of the block -/
  | reservedUnreachable
  deriving DecidableEq, Repr

/-- The three agents that take steps (R5). -/
inductive Agent where
  | env
  | clk
  | exec
  deriving DecidableEq, Repr

/-- Which agent performs an operation (R5); the reserved pattern belongs to none (R56). -/
def Instr.agent : Instr → Option Agent
  | .reset => some .env
  | .edge0 => some .env
  | .edge1 => some .env
  | .stepDec => some .exec
  | .stepInc => some .exec
  | .pulseStart => some .exec
  | .timeIdle => some .clk
  | .timeWait => some .clk
  | .holdChunk => some .exec
  | .holdUnit => some .exec
  | .pulseEnd => some .exec
  | .reservedUnreachable => none

/-- `TIME`, the only operation during which time passes (R97, R123). -/
def Instr.isTime (i : Instr) : Bool := i.agent == some .clk

/-- A selection word in one of its two formats (R47, R52, R53). -/
inductive SelectionWord where
  | stim (w : Stim3)
  | sel (w : Sel7)
  deriving DecidableEq, Repr

end Sys2Proof
end

