-- ==== Sys2Proof/WellFormed.lean ====
section
/-! DEFINITION. What a well-formed configuration (R13) and a well-formed operation (R58) are. -/

namespace Sys2Proof

/-- R13 (a): the resolution is positive. -/
abbrev Config.ResolutionPositive (c : Config) : Prop := 1 ≤ c.resolution

/-- R13 (b): two distinct bounds, at least one step apart. -/
abbrev Config.RangeHoldsAStep (c : Config) : Prop :=
  c.pwmMin < c.pwmMax ∧ c.resolution ≤ c.pwmMax - c.pwmMin

/-- R13 (c): no negative pulse width. -/
abbrev Config.MinNonnegative (c : Config) : Prop := 0 ≤ c.pwmMin

/-- R13 (d): no intermediate of a step leaves the `W`-bit range (R121). -/
abbrev Config.StepFitsWidth (c : Config) : Prop :=
  minSigned ≤ c.pwmMin - c.resolution ∧ c.pwmMax + c.resolution ≤ maxSigned

/-- R13 (e): the chunk is positive. -/
abbrev Config.ChunkPositive (c : Config) : Prop := 1 ≤ c.chunk

/-- R13 (f): the longest hold is non-negative and fits `rem`. -/
abbrev Config.HoldFitsWidth (c : Config) : Prop :=
  0 ≤ c.pulseOffset ∧ c.pwmMax + c.pulseOffset ≤ maxSigned

/-- R13 (g): the period exceeds the longest hold (R119). -/
abbrev Config.PeriodExceedsHold (c : Config) : Prop := c.pwmMax + c.pulseOffset < (c.period : Int)

/-- R13 (h): the tolerance is non-negative. -/
abbrev Config.ToleranceNonnegative (c : Config) : Prop := 0 ≤ c.pulseTol

/-- R13: the block has a meaning only for a configuration with all of (a) to (h). -/
abbrev Config.WellFormed (c : Config) : Prop :=
  c.ResolutionPositive ∧ c.RangeHoldsAStep ∧ c.MinNonnegative ∧ c.StepFitsWidth ∧ c.ChunkPositive ∧
    c.HoldFitsWidth ∧ c.PeriodExceedsHold ∧ c.ToleranceNonnegative

/-- R58: the operation list is closed; the reserved pattern of R56 (a) is not in it. -/
abbrev Instr.WellFormed (i : Instr) : Prop := i ≠ .reservedUnreachable

end Sys2Proof
end

