-- ==== Sys2Proof/Machine/State.lean ====
section
/-! DEFINITION. The state: the block's ten elements (R15) and what the model itself holds of the environment, no
parameter among them (R12, R30); the reasons a step can stop; the machine after reset (R32). -/

namespace Sys2Proof.Machine

/-- `phase` (R23), the sequencer state in place of a program counter. -/
inductive Phase where
  | idle
  | hold
  deriving DecidableEq, Repr

/-- The state of the block: the ten elements of R15 and nothing else. -/
structure Block where
  /-- `PW`, the pulse width, `W` bits signed (R16) -/
  pw : Word
  /-- `home_out`, the homing line (R19) -/
  homeOut : Level
  /-- `servo_out`, the servo line (R27) -/
  servoOut : Level
  /-- `step_pend`, the step request latch (R21) -/
  stepPend : Bool
  /-- `dir_lat`, the DIRECTION level captured with the latched edge (R21) -/
  dirLat : Level
  /-- `tick_pend`, the tick request latch (R22) -/
  tickPend : Bool
  /-- `phase` (R23) -/
  phase : Phase
  /-- `rem`, the hold loop's remaining count, `W` bits signed (R24) -/
  rem : Word
  /-- `wait`, the units left in the wait primitive (R25) -/
  wait : Nat
  /-- `tcnt`, the period-timer count (R26) -/
  tcnt : Nat
  deriving DecidableEq, Repr

/-- Why the machine stops with a fault. -/
inductive Fault where
  /-- Raised by the reserved selection pattern alone (R56 (a), V2): a fault of the model, which the block never
  produces. Safe. -/
  | unreachableSelection
  deriving DecidableEq, Repr

/-- Why an operation is given no meaning. -/
inductive Refusal where
  /-- Raised by an arm of `exec` that has no meaning yet, with the table's mnemonic; no arm does. Safe. -/
  | notModelled (mnemonic : String)
  /-- Raised by every operation and by every step under an ill-formed configuration (R13, V1). Safe. -/
  | illFormedConfig
  /-- Raised by an operation asked for in a state where it is not enabled (R96, R97), which no step does. Safe. -/
  | notEnabled
  /-- Raised by the run of a stimulus trace that lets time pass where two operations are enabled and the trace does not
  say which (R54, R59); no operation and no step does. Safe. -/
  | choiceNotWritten
  /-- Raised by a pseudo-instruction run in a state for which R60 gives it no expansion; no operation and no step
  does. Safe. -/
  | noExpansion
  deriving DecidableEq, Repr

/-- The model's state: the block beside the model's record of the environment (log entries 4, 5). The configuration is
no part of it: the operations and the step relation take it as an argument (R12, R30; log entry 1). -/
structure State where
  /-- the state of the block (R15) -/
  block : Block
  /-- the environment's coming stimulus words, one read a step; none listed is no stimulus (log entry 4) -/
  inputs : List Stim3
  /-- which request wins the next arbitration (R98), a free value (log entry 5) -/
  tieBreak : Priority
  /-- how many free priorities have been drawn (log entry 5) -/
  draws : Nat
  deriving DecidableEq, Repr

/-- The reset values of R32 under a configuration. -/
def Block.atReset (c : Config) : Block where
  pw := toWord c.homeValue
  homeOut := c.signalHome
  servoOut := servoInactive
  stepPend := false
  dirLat := false
  tickPend := false
  phase := .idle
  rem := 0
  wait := 0
  tcnt := 0

/-- Power-on (R112) of a block built with a configuration, no stimulus listed. -/
def State.powerOn (c : Config) : State where
  block := Block.atReset c
  inputs := []
  tieBreak := Config.freePriority 0
  draws := 1

/-- The machine handed to the host, right after reset (log entry 2). -/
def State.reset : State := State.powerOn Config.built

end Sys2Proof.Machine
end

