-- ==== Sys2Proof/Machine/Operands.lean ====
section
/-! DEFINITION. The operands of the operations (R55): the normalised direction, the targets of a step and their
clamp, the length of a hold. -/

namespace Sys2Proof.Machine

/-- `inc(d)` (R49): whether the raw level `d` of `dir_in` means increment. -/
def inc (c : Config) (d : Level) : Bool := d != c.dirDecLevel

/-- The raw level of `dir_in` that means the given direction (R49), the inverse of `inc`. -/
def dirLevel (c : Config) (increment : Bool) : Level :=
  if increment then !c.dirDecLevel else c.dirDecLevel

/-- The intermediate `t` of `STEP_DEC`, an integer (R64, R66). -/
def decTarget (c : Config) (b : Block) : Int := b.pw.toInt - c.resolution

/-- The intermediate `t` of `STEP_INC`, an integer (R65, R66). -/
def incTarget (c : Config) (b : Block) : Int := b.pw.toInt + c.resolution

/-- `clamp(t)` (R67): both comparisons, the second on what the first leaves. -/
def clamp (c : Config) (t : Int) : Int :=
  let v := if t ≤ c.pwmMin then c.pwmMin else t
  if c.pwmMax ≤ v then c.pwmMax else v

/-- `D = PW + PULSE_OFFSET`, the hold a pulse started now asks for (R79, R84). -/
def holdRequest (c : Config) (b : Block) : Int := b.pw.toInt + c.pulseOffset

end Sys2Proof.Machine
end

