-- ==== Sys2Proof/Machine/Flags.lean ====
section
/-! DEFINITION. The homing flag (R19, R68), the block's only flag (R29), and the condition bits of `SEL7` (R53). -/

namespace Sys2Proof.Machine

/-- `lvl(b)`: the `home_out` level for "homed" and "not homed" (R19, R51). -/
def lvl (c : Config) (homed : Bool) : Level := if homed then c.signalHome else c.signalNotHome

/-- The level a step operation writes to `home_out` for the new value of `PW` (R68). -/
def homeFlag (c : Config) (v : Int) : Level := lvl c (v == c.homeValue)

/-- `wnz` (R53): a wait is running. -/
def waitNonzero (b : Block) : Bool := decide (0 < b.wait)

/-- `ge` (R53): `rem >= CHUNK`, a signed comparison. -/
def remAtLeastChunk (c : Config) (b : Block) : Bool := decide ((c.chunk : Int) ≤ b.rem.toInt)

/-- `gt` (R53): `rem > 0`, a signed comparison. -/
def remPositive (b : Block) : Bool := decide (0 < b.rem.toInt)

/-- `SEL7` (R53), formed from the state of the block. -/
def sel7 (c : Config) (b : Block) : Sel7 :=
  BitVec.ofBool (b.phase == .hold) ++ BitVec.ofBool b.tickPend ++ BitVec.ofBool b.stepPend ++
    BitVec.ofBool (inc c b.dirLat) ++ BitVec.ofBool (waitNonzero b) ++ BitVec.ofBool (remAtLeastChunk c b) ++
    BitVec.ofBool (remPositive b)

end Sys2Proof.Machine
end

