-- ==== Sys2Proof/Machine/Enabling.lean ====
section
/-! DEFINITION. When an operation may be taken: `enabled(op)` in the words of R96 and R97, which are normative; the
decode table of R54 is their encoding. -/

namespace Sys2Proof.Machine

/-- `enabled(op)`: `RESET` and `EDGE` in every state (R63, R111), the step operations and `PULSE_START` in `IDLE` with
their request pending (R96), the hold operations as R83 says, `TIME` where no `EXEC` operation is enabled (R97), the
reserved pattern nowhere (R56).

DESIGN CHOICE, safe (log entry 24): `RESET` is enabled also in a hold with `wait` = 0 and `rem` = 0, all `D` units passed and
`PULSE_END` not yet taken, as R111 and R112 have it; the active time of that pulse is then exactly `D`, where R113 says
"less than its `D`" of any `RESET` during a hold. -/
def enabled (c : Config) (b : Block) : Instr → Bool
  | .reset => true
  | .edge0 => true
  | .edge1 => true
  | .stepDec => b.phase == .idle && b.stepPend && !inc c b.dirLat
  | .stepInc => b.phase == .idle && b.stepPend && inc c b.dirLat
  | .pulseStart => b.phase == .idle && b.tickPend
  | .timeIdle => b.phase == .idle && !b.tickPend && !b.stepPend
  | .timeWait => b.phase == .hold && decide (0 < b.wait)
  | .holdChunk => b.phase == .hold && b.wait == 0 && decide ((c.chunk : Int) ≤ b.rem.toInt)
  | .holdUnit =>
    b.phase == .hold && b.wait == 0 && decide (0 < b.rem.toInt) && decide (b.rem.toInt < (c.chunk : Int))
  | .pulseEnd => b.phase == .hold && b.wait == 0 && decide (b.rem.toInt ≤ 0)
  | .reservedUnreachable => false

end Sys2Proof.Machine
end

