-- ==== Sys2Proof/Machine/Ops.lean ====
section
/-! DEFINITION. The operations over the block that the meanings share: latching and serving requests, entering and
leaving the pulse hold (the block's dispatch and return, R99 and R100: there is no exception, R93), starting a wait,
the passing of one unit; and the one way a meaning answers. -/

namespace Sys2Proof.Machine

/-- Latch a step request with its direction; a further edge changes nothing (R21, R63, R101). -/
def Block.latchStep (d : Level) (b : Block) : Block :=
  { b with
    stepPend := true
    dirLat := if b.stepPend then b.dirLat else d }

/-- Serve the pending step request with the intermediate `t`: clamp it, write `PW` once and `home_out` from the new
value, clear the latch (R64, R65, R66, R68). -/
def Block.serveStep (c : Config) (t : Int) (b : Block) : Block :=
  { b with
    pw := toWord (clamp c t)
    homeOut := homeFlag c (clamp c t)
    stepPend := false }

/-- One unit passes: the running wait and the period timer advance, a wrap of the timer is a tick, and a tick that
finds its latch set leaves no trace (R77, R78, R102). -/
def Block.elapse (c : Config) (b : Block) : Block :=
  { b with
    wait := if b.phase = .hold then b.wait - 1 else b.wait
    tcnt := if b.tcnt + 1 = c.period then 0 else b.tcnt + 1
    tickPend := if b.tcnt + 1 = c.period then true else b.tickPend }

/-- Enter the timer handler: clear its latch, raise the servo line, load the hold with the one sample of `PW`
(R79, R99). -/
def Block.enterHold (c : Config) (b : Block) : Block :=
  { b with
    tickPend := false
    servoOut := servoActive
    rem := toWord (holdRequest c b)
    wait := 0
    phase := .hold }

/-- Start a wait primitive of `n` units and take them from the remaining count (R80, R81). -/
def Block.startWait (n : Nat) (b : Block) : Block :=
  { b with
    wait := n
    rem := toWord (b.rem.toInt - n) }

/-- Return from the timer handler: lower the servo line and re-enable dispatch (R82, R100). -/
def Block.leaveHold (b : Block) : Block :=
  { b with
    servoOut := servoInactive
    phase := .idle }

/-- How every operation answers: refused under an ill-formed configuration (R13) or where the operation is not
enabled (R96), else its effect on the block and on nothing besides. -/
def State.perform (s : State) (c : Config) (i : Instr) (effect : Block → Block) : Host.Outcome State Fault Refusal :=
  if c.WellFormed then
    if enabled c s.block i then .next { s with block := effect s.block } else .refused .notEnabled
  else .refused .illFormedConfig

end Sys2Proof.Machine
end

