-- ==== Sys2Proof/Machine/Accumulator.lean ====
section
/-! DEFINITION. The meanings of the Step Accumulator's operations: `STEP_DEC` and `STEP_INC` (R64, R65); each under the
configuration it is given (R12), and as the machine handed to the host runs it. -/

namespace Sys2Proof.Machine

/-- `STEP_DEC` (R64). -/
def stepDecUnder (c : Config) (s : State) : Host.Outcome State Fault Refusal :=
  s.perform c .stepDec fun b => b.serveStep c (decTarget c b)

/-- `STEP_INC` (R65). -/
def stepIncUnder (c : Config) (s : State) : Host.Outcome State Fault Refusal :=
  s.perform c .stepInc fun b => b.serveStep c (incTarget c b)

/-- `STEP_DEC` of the machine as built (log entry 2). -/
def execStepDec (s : State) : Host.Outcome State Fault Refusal := stepDecUnder Config.built s

/-- `STEP_INC` of the machine as built (log entry 2). -/
def execStepInc (s : State) : Host.Outcome State Fault Refusal := stepIncUnder Config.built s

end Sys2Proof.Machine
end

