-- ==== Sys2Proof/Machine/Environment.lean ====
section
/-! DEFINITION. The meanings of the environment's operations: `RESET`, `EDGE(0)`, `EDGE(1)` (R5); each under the
configuration it is given (R12), and as the machine handed to the host runs it. -/

namespace Sys2Proof.Machine

/-- `RESET`: every element at its reset value (R111, R32). -/
def resetUnder (c : Config) (s : State) : Host.Outcome State Fault Refusal :=
  s.perform c .reset fun _ => Block.atReset c

/-- `EDGE(0)`: latch a step request with `dir_in` at level 0 (R63). -/
def edge0Under (c : Config) (s : State) : Host.Outcome State Fault Refusal :=
  s.perform c .edge0 fun b => b.latchStep false

/-- `EDGE(1)`: latch a step request with `dir_in` at level 1 (R63). -/
def edge1Under (c : Config) (s : State) : Host.Outcome State Fault Refusal :=
  s.perform c .edge1 fun b => b.latchStep true

/-- `RESET` of the machine as built (log entry 2). -/
def execReset (s : State) : Host.Outcome State Fault Refusal := resetUnder Config.built s

/-- `EDGE(0)` of the machine as built (log entry 2). -/
def execEdge0 (s : State) : Host.Outcome State Fault Refusal := edge0Under Config.built s

/-- `EDGE(1)` of the machine as built (log entry 2). -/
def execEdge1 (s : State) : Host.Outcome State Fault Refusal := edge1Under Config.built s

end Sys2Proof.Machine
end

