-- ==== Sys2Proof/Machine/Generator.lean ====
section
/-! DEFINITION. The meanings of the PWM Pulse Generator's operations (R77, R79 to R82) and of the reserved selection
pattern (R56); each under the configuration it is given (R12), and as the machine handed to the host runs it. -/

namespace Sys2Proof.Machine

/-- `PULSE_START` (R79). -/
def pulseStartUnder (c : Config) (s : State) : Host.Outcome State Fault Refusal :=
  s.perform c .pulseStart fun b => b.enterHold c

/-- `TIME` taken in `IDLE` with no request pending (R77). -/
def timeIdleUnder (c : Config) (s : State) : Host.Outcome State Fault Refusal :=
  s.perform c .timeIdle fun b => b.elapse c

/-- `TIME` taken in `HOLD` with a wait running (R77). -/
def timeWaitUnder (c : Config) (s : State) : Host.Outcome State Fault Refusal :=
  s.perform c .timeWait fun b => b.elapse c

/-- `HOLD_CHUNK` (R80). -/
def holdChunkUnder (c : Config) (s : State) : Host.Outcome State Fault Refusal :=
  s.perform c .holdChunk fun b => b.startWait c.chunk

/-- `HOLD_UNIT` (R81). -/
def holdUnitUnder (c : Config) (s : State) : Host.Outcome State Fault Refusal :=
  s.perform c .holdUnit fun b => b.startWait 1

/-- `PULSE_END` (R82). -/
def pulseEndUnder (c : Config) (s : State) : Host.Outcome State Fault Refusal :=
  s.perform c .pulseEnd fun b => b.leaveHold

/-- The reserved pattern: no operation of the block and no state change; a fault of the model under every configuration
(R56 (a), V2). -/
def reservedUnreachableUnder (_ : Config) (_ : State) : Host.Outcome State Fault Refusal :=
  .fault .unreachableSelection

/-- `PULSE_START` of the machine as built (log entry 2). -/
def execPulseStart (s : State) : Host.Outcome State Fault Refusal := pulseStartUnder Config.built s

/-- `TIME` in `IDLE`, of the machine as built (log entry 2). -/
def execTimeIdle (s : State) : Host.Outcome State Fault Refusal := timeIdleUnder Config.built s

/-- `TIME` in `HOLD`, of the machine as built (log entry 2). -/
def execTimeWait (s : State) : Host.Outcome State Fault Refusal := timeWaitUnder Config.built s

/-- `HOLD_CHUNK` of the machine as built (log entry 2). -/
def execHoldChunk (s : State) : Host.Outcome State Fault Refusal := holdChunkUnder Config.built s

/-- `HOLD_UNIT` of the machine as built (log entry 2). -/
def execHoldUnit (s : State) : Host.Outcome State Fault Refusal := holdUnitUnder Config.built s

/-- `PULSE_END` of the machine as built (log entry 2). -/
def execPulseEnd (s : State) : Host.Outcome State Fault Refusal := pulseEndUnder Config.built s

/-- The reserved pattern in the machine as built (log entry 2). -/
def execReservedUnreachable (s : State) : Host.Outcome State Fault Refusal :=
  reservedUnreachableUnder Config.built s

end Sys2Proof.Machine
end

