-- ==== Sys2Proof/Machine/Dispatch.lean ====
section
/-! DEFINITION. exec: one arm for each constructor of Instr, each one call of its meaning. -/

namespace Sys2Proof.Machine

def exec (i : Instr) (s : State) : Host.Outcome State Fault Refusal :=
  match i with
  | .reset => Sys2Proof.Machine.execReset s
  | .edge0 => Sys2Proof.Machine.execEdge0 s
  | .edge1 => Sys2Proof.Machine.execEdge1 s
  | .stepDec => Sys2Proof.Machine.execStepDec s
  | .stepInc => Sys2Proof.Machine.execStepInc s
  | .pulseStart => Sys2Proof.Machine.execPulseStart s
  | .timeIdle => Sys2Proof.Machine.execTimeIdle s
  | .timeWait => Sys2Proof.Machine.execTimeWait s
  | .holdChunk => Sys2Proof.Machine.execHoldChunk s
  | .holdUnit => Sys2Proof.Machine.execHoldUnit s
  | .pulseEnd => Sys2Proof.Machine.execPulseEnd s
  | .reservedUnreachable => Sys2Proof.Machine.execReservedUnreachable s

end Sys2Proof.Machine
end

