-- ==== Sys2Proof/Decode.lean ====
section
/-! DEFINITION. Decoding of the stimulus word and of the selection word (R52 to R56), the encoder, the numbers of
the configuration enumerations (R57), and the reading of a word of the opcode table. -/

namespace Sys2Proof

/-- A row of the opcode table for an `n`-bit word: the bits examined, what they must be, the operation. -/
structure Row (n : Nat) where
  mask : BitVec n
  pattern : BitVec n
  op : Instr
  deriving DecidableEq, Repr

/-- Whether a word matches a row. -/
def Row.accepts {n : Nat} (r : Row n) (w : BitVec n) : Bool := w &&& r.mask == r.pattern

/-- The rows of `STIM3` (R52); `00x` matches none: no operation. -/
def stimRows : List (Row 3) :=
  [⟨0b100#3, 0b100#3, .reset⟩, ⟨0b111#3, 0b010#3, .edge0⟩, ⟨0b111#3, 0b011#3, .edge1⟩]

/-- The rows of `SEL7` in the order of R54's table. -/
def selRows : List (Row 7) :=
  [⟨0b1011000#7, 0b0010000#7, .stepDec⟩,
   ⟨0b1011000#7, 0b0011000#7, .stepInc⟩,
   ⟨0b1100000#7, 0b0100000#7, .pulseStart⟩,
   ⟨0b1110000#7, 0b0000000#7, .timeIdle⟩,
   ⟨0b1000100#7, 0b1000100#7, .timeWait⟩,
   ⟨0b1000111#7, 0b1000011#7, .holdChunk⟩,
   ⟨0b1000111#7, 0b1000001#7, .holdUnit⟩,
   ⟨0b1000111#7, 0b1000000#7, .pulseEnd⟩,
   ⟨0b1000111#7, 0b1000010#7, .reservedUnreachable⟩]

/-- The environment operation a stimulus word names, none for `00x` (R52). -/
def decodeStim (w : Stim3) : Option Instr := (stimRows.find? (·.accepts w)).map (·.op)

/-- The operations a selection word enables, in the order of R54's table: one, or a step operation before
`PULSE_START` where R98 leaves the order open. -/
def decodeSel (w : Sel7) : List Instr := (selRows.filter (·.accepts w)).map (·.op)

/-- The operations a word of either format names. -/
def decode : SelectionWord → List Instr
  | .stim w => (decodeStim w).toList
  | .sel w => decodeSel w

/-- The word of an operation, every unexamined bit 0 (R52, R54). -/
def encode : Instr → SelectionWord
  | .reset => .stim 0b100#3
  | .edge0 => .stim 0b010#3
  | .edge1 => .stim 0b011#3
  | .stepDec => .sel 0b0010000#7
  | .stepInc => .sel 0b0011000#7
  | .pulseStart => .sel 0b0100000#7
  | .timeIdle => .sel 0b0000000#7
  | .timeWait => .sel 0b1000100#7
  | .holdChunk => .sel 0b1000011#7
  | .holdUnit => .sel 0b1000001#7
  | .pulseEnd => .sel 0b1000000#7
  | .reservedUnreachable => .sel 0b1000010#7

/-- `REQ3`, the request sub-word `{tick_pend, step_pend, inc}` of `SEL7` (R53). -/
def req3 (w : Sel7) : BitVec 3 := w.extractLsb' 3 3

/-- `HC2`, the hold-condition sub-word `{ge, gt}` of `SEL7` (R53). -/
def hc2 (w : Sel7) : BitVec 2 := w.extractLsb' 0 2

/-- Which format a word of `nbits` bits is in: at most 3 bits `STIM3`, 4 to 7 bits `SEL7`. In a whole byte both
formats meet; a byte whose bits 7 to 3 are 0 and whose low bits name an environment operation is read as `STIM3`,
since no `SEL7` of a reachable state has that value (log entry 7). -/
def readTableWord (nbits w : Nat) : Option SelectionWord :=
  if nbits ≤ 3 then
    if w < 8 then some (.stim (BitVec.ofNat 3 w)) else none
  else if w < 128 then
    if 8 ≤ nbits ∧ w < 8 ∧ (decodeStim (BitVec.ofNat 3 w)).isSome then some (.stim (BitVec.ofNat 3 w))
    else some (.sel (BitVec.ofNat 7 w))
  else none

/-- The instruction read from a word of the opcode table; where a word enables two operations, the step operation. -/
def decodeTableWord (nbits w : Nat) : Option Instr :=
  match readTableWord nbits w with
  | none => none
  | some v => (decode v).head?

/-- R57: 0 = `HOME_AT_MIN`, 1 = `HOME_AT_MAX`. -/
def HomePolarity.bit : HomePolarity → BitVec 1
  | .homeAtMin => 0#1
  | .homeAtMax => 1#1

/-- R57: 0 = `LIMITED_RANGE`, 1 = `RETAIN_REFERENCE`. -/
def TravelMode.bit : TravelMode → BitVec 1
  | .limitedRange => 0#1
  | .retainReference => 1#1

/-- R57: 0 = `FALLING`, 1 = `RISING`. -/
def StepEdge.bit : StepEdge → BitVec 1
  | .falling => 0#1
  | .rising => 1#1

end Sys2Proof
end

