-- ==== Sys2Proof/Machine/Select.lean ====
section
/-! DEFINITION. In place of an instruction fetch (R46, R47): which operation comes next under a configuration, from the
environment's stimulus word and from the block's selection word; what reading them uses up; and the placing of a word
where the next step reads it. -/

namespace Sys2Proof.Machine

/-- The stimulus word of this step: the first listed, or no stimulus (`00x`, R52; log entry 4). -/
def State.stimulus (s : State) : Stim3 := s.inputs.headD 0b000#3

/-- The operations the block's own state enables (R53, R54). -/
def State.candidates (c : Config) (s : State) : List Instr := decodeSel (sel7 c s.block)

/-- Which of the enabled operations is taken: the only one, or one of the two of R98 (a step operation before
`PULSE_START` in the table's order) by the priority given. -/
def arbitrate (p : Priority) : List Instr → Option Instr
  | [] => none
  | [i] => some i
  | i :: j :: _ =>
    match p with
    | .stepFirst => some i
    | .tickFirst => some j

/-- The operation this step takes: the environment's if its stimulus word names one (R52, R112), else the block's
(R54, R98). -/
def State.selected (c : Config) (s : State) : Instr :=
  match decodeStim s.stimulus with
  | some i => i
  | none => (arbitrate s.tieBreak (s.candidates c)).getD .reservedUnreachable

/-- The word by which this step's operation is selected (R47, R61). -/
def State.selectionWord (c : Config) (s : State) : SelectionWord :=
  if (decodeStim s.stimulus).isSome then .stim s.stimulus else .sel (sel7 c s.block)

/-- Whether this step decides between two enabled operations (R98). -/
def State.arbitrates (c : Config) (s : State) : Bool :=
  (decodeStim s.stimulus).isNone && decide (2 ≤ (s.candidates c).length)

/-- What selecting uses up: the stimulus word read and, where the step arbitrates, the priority, which is drawn afresh
(log entries 4 and 5). -/
def State.consume (c : Config) (s : State) : State :=
  { s with
    inputs := s.inputs.tail
    tieBreak := if s.arbitrates c then Config.freePriority s.draws else s.tieBreak
    draws := if s.arbitrates c then s.draws + 1 else s.draws }

/-- A remaining count with the given `ge` and `gt` bits: the present one where it has them (log entry 8). -/
def remFor (c : Config) (b : Block) (ge gt : Bool) : Word :=
  if remAtLeastChunk c b = ge ∧ remPositive b = gt then b.rem
  else if ge then toWord c.chunk
  else if gt then 1
  else 0

/-- A block whose `SEL7` is the word given, where some block has it (R53; log entry 8). -/
def Block.withSel (c : Config) (w : Sel7) (b : Block) : Block :=
  { b with
    phase := if w.getLsbD 6 then .hold else .idle
    tickPend := w.getLsbD 5
    stepPend := w.getLsbD 4
    dirLat := dirLevel c (w.getLsbD 3)
    wait := if w.getLsbD 2 then max 1 b.wait else 0
    rem := remFor c b (w.getLsbD 1) (w.getLsbD 0) }

/-- The state with a selection word placed where the next step reads it: a stimulus word before the environment's
others, a `SEL7` word in the block, with no stimulus for this step (log entry 8). -/
def State.place (c : Config) (s : State) : SelectionWord → State
  | .stim w => { s with inputs := w :: s.inputs }
  | .sel w =>
    { s with
      block := s.block.withSel c w
      inputs := if (decodeStim s.stimulus).isSome then 0b000#3 :: s.inputs else s.inputs
      tieBreak := if 2 ≤ (decodeSel w).length then .stepFirst else s.tieBreak }

/-- The state with a word of the opcode table placed; unchanged where the word is of neither format. -/
def State.placeTableWord (c : Config) (s : State) (nbits w : Nat) : State :=
  match readTableWord nbits w with
  | none => s
  | some v => s.place c v

end Sys2Proof.Machine
end

