-- ==== Sys2Proof/Machine/Relation.lean ====
section
/-! DEFINITION. The step relation, with the configuration as its argument (R12): what each operation does under a
configuration, and one step under it. -/

namespace Sys2Proof.Machine

/-- An operation under a configuration (R5, R12, R58). -/
def execUnder (c : Config) (i : Instr) (s : State) : Host.Outcome State Fault Refusal :=
  match i with
  | .reset => resetUnder c s
  | .edge0 => edge0Under c s
  | .edge1 => edge1Under c s
  | .stepDec => stepDecUnder c s
  | .stepInc => stepIncUnder c s
  | .pulseStart => pulseStartUnder c s
  | .timeIdle => timeIdleUnder c s
  | .timeWait => timeWaitUnder c s
  | .holdChunk => holdChunkUnder c s
  | .holdUnit => holdUnitUnder c s
  | .pulseEnd => pulseEndUnder c s
  | .reservedUnreachable => reservedUnreachableUnder c s

/-- One step under a configuration: the operation selected (R47, R54) runs, and what its selection used up is gone; an
ill-formed configuration has no step (R13, V1). -/
def stepUnder (c : Config) (s : State) : Host.Outcome State Fault Refusal :=
  if c.WellFormed then execUnder c (s.selected c) (s.consume c) else .refused .illFormedConfig

end Sys2Proof.Machine
end

