-- ==== Sys2Proof/Machine/Step.lean ====
section
/-! DEFINITION. One step of the machine handed to the host, which is built with one configuration (log entry 2): the
operation selected (R47, R54) runs, and what its selection used up is gone. -/

namespace Sys2Proof.Machine

/-- One step of the machine as built: `stepUnder` (R12) with the configuration built in, which is well-formed. -/
def step (s : State) : Host.Outcome State Fault Refusal := exec (s.selected Config.built) (s.consume Config.built)

/-- The state whose next step reads the given word of the opcode table (log entry 8). -/
def State.withFetchWord (s : State) (nbits w : Nat) : State := s.placeTableWord Config.built nbits w

end Sys2Proof.Machine
end

