-- ==== Sys2Proof/Machine/HoldCounter.lean ====
section
/-! DEFINITION. The equivalent reading of R91: a machine with a single down-counter `hold` in place of `rem`, `wait`,
`HOLD_CHUNK` and `HOLD_UNIT`. -/

namespace Sys2Proof.Machine

/-- The state of the single-counter machine (R91). -/
structure CounterBlock where
  pw : Word
  homeOut : Level
  servoOut : Level
  stepPend : Bool
  dirLat : Level
  tickPend : Bool
  phase : Phase
  hold : Int
  tcnt : Nat
  deriving DecidableEq, Repr

/-- What the single counter shows of a block: the units of the hold still to elapse (R84). -/
def Block.toCounter (b : Block) : CounterBlock where
  pw := b.pw
  homeOut := b.homeOut
  servoOut := b.servoOut
  stepPend := b.stepPend
  dirLat := b.dirLat
  tickPend := b.tickPend
  phase := b.phase
  hold := b.rem.toInt + b.wait
  tcnt := b.tcnt

/-- When the single-counter machine may take an operation (R91): `TIME` in a hold while the counter is positive,
`PULSE_END` when it is not; the two wait operations are not its own. -/
def CounterBlock.enabled (c : Config) (k : CounterBlock) : Instr → Bool
  | .reset => true
  | .edge0 => true
  | .edge1 => true
  | .stepDec => k.phase == .idle && k.stepPend && !inc c k.dirLat
  | .stepInc => k.phase == .idle && k.stepPend && inc c k.dirLat
  | .pulseStart => k.phase == .idle && k.tickPend
  | .timeIdle => k.phase == .idle && !k.tickPend && !k.stepPend
  | .timeWait => k.phase == .hold && decide (0 < k.hold)
  | .holdChunk => false
  | .holdUnit => false
  | .pulseEnd => k.phase == .hold && decide (k.hold ≤ 0)
  | .reservedUnreachable => false

/-- The period timer of the single-counter machine (R77, R78). -/
def CounterBlock.tickTimer (c : Config) (k : CounterBlock) : CounterBlock :=
  { k with
    tcnt := if k.tcnt + 1 = c.period then 0 else k.tcnt + 1
    tickPend := if k.tcnt + 1 = c.period then true else k.tickPend }

/-- The effect of an operation on the single-counter machine (R91). -/
def CounterBlock.apply (c : Config) (k : CounterBlock) : Instr → CounterBlock
  | .reset => (Block.atReset c).toCounter
  | .edge0 => if k.stepPend then k else { k with stepPend := true, dirLat := false }
  | .edge1 => if k.stepPend then k else { k with stepPend := true, dirLat := true }
  | .stepDec =>
    { k with
      pw := toWord (clamp c (k.pw.toInt - c.resolution))
      homeOut := homeFlag c (clamp c (k.pw.toInt - c.resolution))
      stepPend := false }
  | .stepInc =>
    { k with
      pw := toWord (clamp c (k.pw.toInt + c.resolution))
      homeOut := homeFlag c (clamp c (k.pw.toInt + c.resolution))
      stepPend := false }
  | .pulseStart =>
    { k with
      tickPend := false
      servoOut := servoActive
      phase := .hold
      hold := k.pw.toInt + c.pulseOffset }
  | .timeIdle => k.tickTimer c
  | .timeWait => { k.tickTimer c with hold := k.hold - 1 }
  | .holdChunk => k
  | .holdUnit => k
  | .pulseEnd => { k with servoOut := servoInactive, phase := .idle }
  | .reservedUnreachable => k

end Sys2Proof.Machine
end

