-- ==== Sys2Proof/Machine/Lines.lean ====
section
/-! DEFINITION. From the levels on the input lines to stimulus words (R6, R48, R52). The levels are the environment's:
the block holds none of them (R30). -/

namespace Sys2Proof.Machine

/-- A qualifying edge (R48): the transition of `step_in` that `STEP_EDGE` selects. -/
def qualifies (c : Config) (before now : Level) : Bool :=
  match c.stepEdge with
  | .falling => before && !now
  | .rising => !before && now

/-- The levels on the three input lines at one instant (R6). -/
structure InputLines where
  rst : Level
  stepIn : Level
  dirIn : Level
  deriving DecidableEq, Repr

/-- The stimulus word of an instant, from the level of `step_in` before it (R52). -/
def stimWord (c : Config) (before : Level) (now : InputLines) : Stim3 :=
  BitVec.ofBool now.rst ++ BitVec.ofBool (qualifies c before now.stepIn) ++ BitVec.ofBool now.dirIn

/-- The stimulus words of a sampled waveform, from the level of `step_in` before its first sample. -/
def stimWords (c : Config) : Level → List InputLines → List Stim3
  | _, [] => []
  | before, now :: rest => stimWord c before now :: stimWords c now.stepIn rest

end Sys2Proof.Machine
end

