-- ==== Sys2Proof/Machine/Trace.lean ====
section
/-! DEFINITION. Traces (R59): full traces, in which every operation is written out, and stimulus traces, in which the
operations of `EXEC` are filled in by urgency (R97); the encoding of a stimulus trace (R61); the pseudo-instructions and
their expansions (R60). The notation is data here, not text (log entry 14). -/

namespace Sys2Proof.Machine

/-! The lines -/

/-- The six operations of `EXEC` (R5), which a trace may write out by name (R59). -/
inductive ExecOp where
  | stepDec
  | stepInc
  | pulseStart
  | holdChunk
  | holdUnit
  | pulseEnd
  deriving DecidableEq, Repr

/-- The operation an `EXEC` line names. -/
def ExecOp.instr : ExecOp → Instr
  | .stepDec => .stepDec
  | .stepInc => .stepInc
  | .pulseStart => .pulseStart
  | .holdChunk => .holdChunk
  | .holdUnit => .holdUnit
  | .pulseEnd => .pulseEnd

/-- All of them, in the order of R54's table. -/
def ExecOp.all : List ExecOp := [.stepDec, .stepInc, .pulseStart, .holdChunk, .holdUnit, .pulseEnd]

/-- The step operation that serves a request of the given direction (R96). -/
def ExecOp.step (increment : Bool) : ExecOp := if increment then .stepInc else .stepDec

/-- A line of a trace (R59). -/
inductive TraceLine where
  /-- `RESET` -/
  | reset
  /-- `EDGE INC` and `EDGE DEC` -/
  | edge (increment : Bool)
  /-- `TIME n`, `n >= 1` -/
  | time (n : Nat) (pos : 1 ≤ n)
  /-- the name of an `EXEC` operation -/
  | op (o : ExecOp)
  deriving DecidableEq, Repr

/-- The line `TIME n`; no line where no unit is to pass. -/
def timeLines (n : Nat) : List TraceLine := if h : 1 ≤ n then [.time n h] else []

/-- The raw `EDGE` operation for a direction (R49, R59). -/
def edgeOp (c : Config) (increment : Bool) : Instr := if dirLevel c increment then .edge1 else .edge0

/-- The `TIME` operation of the present phase (R77). -/
def timeOp (b : Block) : Instr :=
  match b.phase with
  | .idle => .timeIdle
  | .hold => .timeWait

/-! The encoding of a stimulus trace (R61) -/

/-- An element of the encoding of a stimulus trace (R61): a `STIM3` word or `T n`. -/
inductive StimulusItem where
  | word (w : Stim3)
  | units (n : Nat)
  deriving DecidableEq, Repr

/-- The encoding of one line; the `EXEC` lines are not part of a stimulus (R59, R61). -/
def TraceLine.stimulus (c : Config) : TraceLine → List StimulusItem
  | .reset => [.word 0b100#3]
  | .edge increment => [.word (0b01#2 ++ BitVec.ofBool (dirLevel c increment))]
  | .time n _ => [.units n]
  | .op _ => []

/-- The encoding of a stimulus trace (R61). -/
def encodeStimulus (c : Config) (ls : List TraceLine) : List StimulusItem := ls.flatMap (·.stimulus c)

/-! Full traces -/

/-- `n` consecutive `TIME` operations, each of which must be enabled (R59). -/
def runTime (c : Config) : Nat → State → Host.Outcome State Fault Refusal
  | 0, s => .next s
  | n + 1, s =>
    match execUnder c (timeOp s.block) s with
    | .next t => runTime c n t
    | .fault r => .fault r
    | .refused r => .refused r

/-- The effect of one line of a trace (R59). -/
def TraceLine.run (c : Config) : TraceLine → State → Host.Outcome State Fault Refusal
  | .reset, s => execUnder c .reset s
  | .edge increment, s => execUnder c (edgeOp c increment) s
  | .time n _, s => runTime c n s
  | .op o, s => execUnder c o.instr s

/-- The run of a full trace (R59): each line in the order taken, stopping at the first that is not enabled. -/
def runTrace (c : Config) : List TraceLine → State → Host.Outcome State Fault Refusal
  | [], s => .next s
  | l :: ls, s =>
    match l.run c s with
    | .next t => runTrace c ls t
    | .fault r => .fault r
    | .refused r => .refused r

/-- The run of a full trace given as its operations, unit by unit. -/
def runOperations (c : Config) : List Instr → State → Host.Outcome State Fault Refusal
  | [], s => .next s
  | i :: is, s =>
    match execUnder c i s with
    | .next t => runOperations c is t
    | .fault r => .fault r
    | .refused r => .refused r

/-! Stimulus traces -/

/-- What a run has taken: its operations in order (the full trace, R59) and how it ended. -/
structure Taken where
  ops : List Instr
  outcome : Host.Outcome State Fault Refusal

/-- One run, and a second from the state the first leaves. -/
def Taken.andThen (r : Taken) (f : State → Taken) : Taken :=
  match r.outcome with
  | .next t =>
    match f t with
    | ⟨os, o⟩ => ⟨r.ops ++ os, o⟩
  | .fault _ => r
  | .refused _ => r

/-- One operation. -/
def takeOp (c : Config) (i : Instr) (s : State) : Taken :=
  match execUnder c i s with
  | .next t => ⟨[i], .next t⟩
  | .fault r => ⟨[], .fault r⟩
  | .refused r => ⟨[], .refused r⟩

/-- The operations of `EXEC` enabled in a state (R96): time may not pass while there is one (R97). -/
def dueOps (c : Config) (b : Block) : List ExecOp := ExecOp.all.filter fun o => enabled c b o.instr

/-- The operation that urgency determines: the one enabled operation of `EXEC`, none where two are (R54, R59). -/
def forcedOp (c : Config) (b : Block) : Option ExecOp :=
  match dueOps c b with
  | [o] => some o
  | _ => none

/-- Whether the `EXEC` line that the trace writes next is enabled, so that nothing is filled in before it. -/
def writtenIsDue (c : Config) (written : Option ExecOp) (b : Block) : Bool :=
  match written with
  | none => false
  | some o => enabled c b o.instr

/-- Whether an edge line is taken before `EXEC` acts: where the `EXEC` line written next is enabled, and where a tick is
pending in `IDLE`, since the edge is then at the instant of the tick and makes R54 enable two operations (R98; program
P3 of 95_test_vectors.md; log entry 21). -/
def edgeIsDue (c : Config) (written : Option ExecOp) (b : Block) : Bool :=
  writtenIsDue c written b || (b.phase == .idle && b.tickPend)

/-- How many forced operations can follow one another before time passes or two are enabled. -/
def forcedBound : Nat := 3

/-- Fill in at most the given number of the operations that urgency determines, one after another (R59, R97), up to a
block that the condition names. -/
def fillForced (c : Config) (stop : Block → Bool) : Nat → State → Taken
  | 0, s => ⟨[], .next s⟩
  | n + 1, s =>
    if stop s.block then ⟨[], .next s⟩
    else
      match forcedOp c s.block with
      | none => ⟨[], .next s⟩
      | some o => (takeOp c o.instr s).andThen (fillForced c stop n)

/-- `EXEC` acts as far as urgency determines it, up to a block that the condition names. -/
def settle (c : Config) (stop : Block → Bool) (s : State) : Taken := fillForced c stop forcedBound s

/-- One unit of a stimulus trace: `EXEC` acts, then time passes; where two operations are enabled the trace must have
said which (R59). -/
def passUnit (c : Config) (s : State) : Taken :=
  (settle c (fun _ => false) s).andThen fun t =>
    if 2 ≤ (dueOps c t.block).length then ⟨[], .refused .choiceNotWritten⟩ else takeOp c (timeOp t.block) t

/-- `TIME n` of a stimulus trace. -/
def passUnits (c : Config) : Nat → State → Taken
  | 0, s => ⟨[], .next s⟩
  | n + 1, s => (passUnit c s).andThen (passUnits c n)

/-- The `EXEC` line that a trace writes next, before time passes or the block is reset. -/
def nextWritten : List TraceLine → Option ExecOp
  | [] => none
  | .op o :: _ => some o
  | .edge _ :: ls => nextWritten ls
  | .time _ _ :: _ => none
  | .reset :: _ => none

/-- One line of a stimulus trace, the `EXEC` line written next being known: `RESET` acts at once (R112), an edge after
what urgency determines at its instant, a written operation as soon as it is enabled, time unit by unit. -/
def TraceLine.fill (c : Config) (written : Option ExecOp) : TraceLine → State → Taken
  | .reset, s => takeOp c .reset s
  | .edge increment, s => (settle c (edgeIsDue c written) s).andThen (takeOp c (edgeOp c increment))
  | .time n _, s => passUnits c n s
  | .op o, s => (settle c (writtenIsDue c (some o)) s).andThen (takeOp c o.instr)

/-- The run of a stimulus trace (R59): its lines in order, with the operations of `EXEC` that urgency determines filled
in as soon as they are enabled, after the last line too (log entry 21); the full trace it stands for, and how it
ended. -/
def runStimulus (c : Config) : List TraceLine → State → Taken
  | [], s => settle c (fun _ => false) s
  | l :: ls, s => (l.fill c (nextWritten ls) s).andThen (runStimulus c ls)

/-- The operations of the environment and the units of time that the lines of a trace list, in order, the `EXEC` lines
left out; a unit is `none`. -/
def TraceLine.listed (c : Config) : TraceLine → List (Option Instr)
  | .reset => [some .reset]
  | .edge increment => [some (edgeOp c increment)]
  | .time n _ => List.replicate n none
  | .op _ => []

/-- The same of an operation: itself for the environment's, a unit for `TIME`, nothing for the operations of `EXEC`. -/
def listedInstr (i : Instr) : List (Option Instr) :=
  match i.agent with
  | some .env => [some i]
  | some .clk => [none]
  | some .exec => []
  | none => []

/-- The operations that the lines of a full trace write out, in order (R59); a unit, whose `TIME` is the one of the
phase, is `none`. -/
def TraceLine.written (c : Config) : TraceLine → List (Option Instr)
  | .reset => [some .reset]
  | .edge increment => [some (edgeOp c increment)]
  | .time n _ => List.replicate n none
  | .op o => [some o.instr]

/-- The same of an operation. -/
def writtenInstr (i : Instr) : Option Instr := if i.isTime then none else some i

/-! Pseudo-instructions (R60) -/

/-- The pseudo-instructions. -/
inductive Pseudo where
  /-- `STEP INC` and `STEP DEC` -/
  | step (increment : Bool)
  /-- `STEPS n, INC` and `STEPS n, DEC` -/
  | steps (n : Nat) (increment : Bool)
  /-- `TICK` -/
  | tick
  /-- `IDLE n` -/
  | idle (n : Nat) (pos : 1 ≤ n)
  deriving DecidableEq, Repr

/-- The hold operations of a hold with `d` units left (R84): `d div CHUNK` chunks, then `d mod CHUNK` units. -/
def holdLines (c : Config) (d : Nat) : List TraceLine :=
  (List.replicate (d / c.chunk) (.op .holdChunk :: timeLines c.chunk)).flatten ++
    (List.replicate (d % c.chunk) (.op .holdUnit :: timeLines 1)).flatten

/-- What comes before `phase = IDLE`: nothing in `IDLE`; in a hold the running wait, the rest of the hold and its end
(R83). -/
def untilIdleLines (c : Config) (b : Block) : List TraceLine :=
  match b.phase with
  | .idle => []
  | .hold => timeLines b.wait ++ holdLines c b.rem.toInt.toNat ++ [.op .pulseEnd]

/-- One step: the edge and, as soon as `phase = IDLE`, the step operation it latches; an edge that finds a request
pending latches none (R60, R63; log entry 22). -/
def stepLines (c : Config) (b : Block) (increment : Bool) : List TraceLine :=
  .edge increment :: (if b.stepPend then [] else untilIdleLines c b ++ [.op (.step increment)])

/-- `n` steps, each completed before the next: the first leaves `IDLE` with no request pending, so that the pairs after
it are adjacent (R60). -/
def stepsLines (c : Config) (b : Block) (increment : Bool) : Nat → List TraceLine
  | 0 => []
  | n + 1 =>
    stepLines c b increment ++
      (List.replicate n (.edge increment :: (if b.stepPend then [] else [.op (.step increment)]))).flatten

/-- The expansion of a pseudo-instruction in a state (R60), none where the rule gives none: `TICK` is for `phase = IDLE`
with no tick pending, `IDLE n` for `phase = IDLE`. -/
def Pseudo.expand (c : Config) (b : Block) : Pseudo → Option (List TraceLine)
  | .step increment => some (stepLines c b increment)
  | .steps n increment => some (stepsLines c b increment n)
  | .tick =>
    if b.phase = .idle ∧ b.tickPend = false then
      some (timeLines (c.period - b.tcnt) ++ .op .pulseStart :: holdLines c (holdRequest c b).toNat ++ [.op .pulseEnd])
    else none
  | .idle n pos => if b.phase = .idle then some [.time n pos] else none

/-- The run of a pseudo-instruction: its expansion, line by line. -/
def Pseudo.run (c : Config) (p : Pseudo) (s : State) : Host.Outcome State Fault Refusal :=
  match p.expand c s.block with
  | some ls => runTrace c ls s
  | none => .refused .noExpansion

end Sys2Proof.Machine
end

