-- ==== Sys2Proof/Machine/Run.lean ====
section
/-! DEFINITION. Finite runs under a configuration (R12, R124): the state after `n` steps, the operations they took, the
units that passed, and what the environment observes (R125). -/

namespace Sys2Proof.Machine

/-- `n` steps, stopping at the first fault or refusal. -/
def runSteps (c : Config) : Nat → State → Host.Outcome State Fault Refusal
  | 0, s => .next s
  | n + 1, s =>
    match stepUnder c s with
    | .next t => runSteps c n t
    | .fault r => .fault r
    | .refused r => .refused r

/-- The operations that `n` steps take, in order: the full trace (R59). -/
def operations (c : Config) : Nat → State → List Instr
  | 0, _ => []
  | n + 1, s =>
    match stepUnder c s with
    | .next t => s.selected c :: operations c n t
    | .fault _ => []
    | .refused _ => []

/-- The words by which `n` steps select their operations: the encoding of the full trace (R61). -/
def selectionWords (c : Config) : Nat → State → List SelectionWord
  | 0, _ => []
  | n + 1, s =>
    match stepUnder c s with
    | .next t => s.selectionWord c :: selectionWords c n t
    | .fault _ => []
    | .refused _ => []

/-- The units that pass in `n` steps: one for each `TIME` (R123). -/
def unitsElapsed (c : Config) (n : Nat) (s : State) : Nat := (operations c n s).countP (·.isTime)

/-- A write to an output line (R125). -/
inductive LineWrite where
  | servoOut (level : Level)
  | homeOut (level : Level)
  deriving DecidableEq, Repr

/-- The writes an operation makes to the two lines, with the levels the block holds after it (R19, R27): `RESET`
writes both, a step operation `home_out`, `PULSE_START` and `PULSE_END` `servo_out`. The writes of one operation take
effect together (00_scope.md, 6); that those of `RESET` stand in this order in the sequence, `home_out` first, is a
DESIGN CHOICE, unsafe for a claim that rests on the order (log entry 23). -/
def lineWrites (i : Instr) (after : Block) : List LineWrite :=
  match i with
  | .reset => [.homeOut after.homeOut, .servoOut after.servoOut]
  | .edge0 => []
  | .edge1 => []
  | .stepDec => [.homeOut after.homeOut]
  | .stepInc => [.homeOut after.homeOut]
  | .pulseStart => [.servoOut after.servoOut]
  | .timeIdle => []
  | .timeWait => []
  | .holdChunk => []
  | .holdUnit => []
  | .pulseEnd => [.servoOut after.servoOut]
  | .reservedUnreachable => []

/-- The observation of `n` steps (R125): each write to a line with the number of `TIME` operations before it, counted
from `units`. R125 speaks of "units since reset" and of "the count of `TIME` operations before each"; that the count
goes on over a `RESET` inside the run is a DESIGN CHOICE, unsafe for a claim that takes it for the units since the latest
`RESET` (log entry 23). -/
def observe (c : Config) : Nat → Nat → State → List (Nat × LineWrite)
  | 0, _, _ => []
  | n + 1, units, s =>
    match stepUnder c s with
    | .next t =>
      (lineWrites (s.selected c) t.block).map (fun w => (units, w)) ++
        observe c n (if (s.selected c).isTime then units + 1 else units) t
    | .fault _ => []
    | .refused _ => []

end Sys2Proof.Machine
end

