-- ==== Sys2Proof/Safety.lean ====
section
/-! DEFINITION. What every reachable state of the block satisfies (R17, R20, R25 to R27, R82, R83, R88), and the
tolerance within which a claim about the real servo line holds (R85). -/

namespace Sys2Proof.Machine

/-- The invariant of the block under a configuration. The first five clauses are the spec's own; the rest say why no
tick is ever missed (R88): a hold starts with `tcnt = 0`, ends before the next tick, and a pending tick is served
before time passes. -/
structure Block.Inv (c : Config) (b : Block) : Prop where
  /-- R17 -/
  pw_ge_min : c.pwmMin ≤ b.pw.toInt
  /-- R17 -/
  pw_le_max : b.pw.toInt ≤ c.pwmMax
  /-- R20 -/
  home_iff : b.homeOut = lvl c (b.pw.toInt == c.homeValue)
  /-- R27 -/
  servo_iff : b.servoOut = servoActive ↔ b.phase = .hold
  /-- R83: while `phase = IDLE`, `wait = 0`; and `rem` keeps its final value 0 (R82) -/
  idle_done : b.phase = .idle → b.wait = 0 ∧ b.rem = 0
  /-- R25 -/
  wait_le_chunk : b.wait ≤ c.chunk
  /-- R26 -/
  tcnt_lt_period : b.tcnt < c.period
  /-- R82: `rem` is never negative -/
  rem_nonneg : 0 ≤ b.rem.toInt
  /-- R88: the hold ends before the next tick -/
  hold_ends : b.phase = .hold → (b.tcnt : Int) + b.rem.toInt + b.wait ≤ c.pwmMax + c.pulseOffset
  /-- R88: no tick is pending in a hold -/
  hold_no_tick : b.phase = .hold → b.tickPend = false
  /-- R88: a pending tick finds the timer where the tick left it -/
  tick_fresh : b.phase = .idle → b.tickPend = true → b.tcnt = 0

/-- A state of a block built with a well-formed configuration that satisfies the block's invariant. -/
structure State.Inv (c : Config) (s : State) : Prop where
  /-- R13 -/
  wellFormed : c.WellFormed
  block : Block.Inv c s.block

/-- R85: what may be claimed of a measured pulse whose nominal length is `d` units. -/
def pulseWithinTolerance (c : Config) (measured d : Int) : Prop := |measured - d| ≤ c.pulseTol

end Sys2Proof.Machine
end

