-- ==== Sys2Proof/Certificates/Slice0/Obligations.lean ====
section
/-! DEFINITION. The statements for the provers, from the numbered rules of the spec. A configuration is an argument of
the step relation (`execUnder`, `stepUnder`; R12); `exec` and `step` are the machine built with `Config.built` (log
entry 2). -/

open Sys2Proof Sys2Proof.Machine

/-! Encodings -/

/-- R52: how the stimulus word is formed from the lines, and what each of its eight values decodes to. -/
def Obligations.StimulusWordFormsAndDecodes : Prop :=
  (∀ (c : Config) (before : Level) (now : InputLines),
    (stimWord c before now).getLsbD 2 = now.rst ∧
    (stimWord c before now).getLsbD 1 = qualifies c before now.stepIn ∧
    (stimWord c before now).getLsbD 0 = now.dirIn) ∧
  (∀ edge dir : Bool, decodeStim (1#1 ++ BitVec.ofBool edge ++ BitVec.ofBool dir) = some .reset) ∧
  decodeStim 0b010#3 = some .edge0 ∧
  decodeStim 0b011#3 = some .edge1 ∧
  (∀ dir : Bool, decodeStim (0b00#2 ++ BitVec.ofBool dir) = none)

/-- R48: the qualifying transition is 1 to 0 under `FALLING` and 0 to 1 under `RISING`, and no other; without reset each
qualifying edge is one `EDGE` with the level of `dir_in`, and without one nothing happens. -/
def Obligations.QualifyingEdgeIsTheConfiguredTransition : Prop :=
  (∀ (c : Config) (before now : Level),
    qualifies c before now = true ↔
      (c.stepEdge = .falling ∧ before = true ∧ now = false) ∨
      (c.stepEdge = .rising ∧ before = false ∧ now = true)) ∧
  (∀ (c : Config) (before : Level) (now : InputLines), now.rst = false →
    decodeStim (stimWord c before now) =
      if qualifies c before now.stepIn then some (if now.dirIn then .edge1 else .edge0) else none)

/-- R54's decode table, for each of the 128 selection words; the reserved pattern of R56 (a) stands in its place. -/
def Obligations.SelectionWordDecodesByTable : Prop :=
  ∀ ph tick step inc wnz ge gt : Bool,
    decodeSel (BitVec.ofBool ph ++ BitVec.ofBool tick ++ BitVec.ofBool step ++ BitVec.ofBool inc ++
        BitVec.ofBool wnz ++ BitVec.ofBool ge ++ BitVec.ofBool gt) =
      if ph then
        if wnz then [.timeWait]
        else if ge && gt then [.holdChunk]
        else if gt then [.holdUnit]
        else if ge then [.reservedUnreachable]
        else [.pulseEnd]
      else
        (if step then [if inc then .stepInc else .stepDec] else []) ++
          (if tick then [.pulseStart] else []) ++
          (if !tick && !step then [.timeIdle] else [])

/-- Words written out from the encodings of R52 and R54 decode to their operations. -/
def Obligations.WrittenWordsDecode : Prop :=
  decode (.stim 0b100#3) = [.reset] ∧ decode (.stim 0b011#3) = [.edge1] ∧
  decode (.sel 0b0011000#7) = [.stepInc] ∧ decode (.sel 0b0010000#7) = [.stepDec] ∧
  decode (.sel 0b0101000#7) = [.pulseStart] ∧ decode (.sel 0b1011011#7) = [.holdChunk] ∧
  decode (.sel 0b1010001#7) = [.holdUnit] ∧ decode (.sel 0b1011000#7) = [.pulseEnd]

/-- Decoding an encoded operation of the closed list (R58) gives that operation and no other. -/
def Obligations.EncodedOperationDecodesToItself : Prop :=
  ∀ i : Instr, i.WellFormed → decode (encode i) = [i]

/-- A selection word that some block can have is the one formed again from the block it is placed in: every word but
those with `ge` and without `gt` (R56). The placing is the model's own (log entry 8). -/
def Obligations.PlacedSelectionWordIsFormedAgain : Prop :=
  ∀ (c : Config) (b : Block) (w : Sel7),
    2 ≤ c.chunk → (c.chunk : Int) ≤ maxSigned → (w.getLsbD 1 = true → w.getLsbD 0 = true) →
      sel7 c (b.withSel c w) = w

/-! Configuration -/

/-- R13: the well-formed configurations, condition by condition, at `W = 16`; under any other, no operation of the closed
list and no step runs. -/
def Obligations.WellFormedConfigurationConditions : Prop :=
  (∀ c : Config, c.WellFormed ↔
    1 ≤ c.resolution ∧
    (c.pwmMin < c.pwmMax ∧ c.resolution ≤ c.pwmMax - c.pwmMin) ∧
    0 ≤ c.pwmMin ∧
    (-32768 ≤ c.pwmMin - c.resolution ∧ c.pwmMax + c.resolution ≤ 32767) ∧
    1 ≤ c.chunk ∧
    (0 ≤ c.pulseOffset ∧ c.pwmMax + c.pulseOffset ≤ 32767) ∧
    c.pwmMax + c.pulseOffset < c.period ∧
    0 ≤ c.pulseTol) ∧
  (∀ (c : Config) (s : State), ¬ c.WellFormed →
    stepUnder c s = .refused .illFormedConfig ∧
    ∀ i : Instr, i.WellFormed → execUnder c i s = .refused .illFormedConfig)

/-- R6, R28, R48: `STEP_EDGE` says which transitions of `step_in` the environment turns into stimulus words, and
`PULSE_TOL` is no hardware: under two well-formed configurations that differ in them alone the selection, every operation,
every step, every run and what is observed of it are the same. -/
def Obligations.StepEdgeAndToleranceAreReadByNoOperation : Prop :=
  ∀ (c : Config) (edge : StepEdge) (tol : Int) (s : State), c.WellFormed → 0 ≤ tol →
    let c' := { c with stepEdge := edge, pulseTol := tol }
    s.selected c' = s.selected c ∧
    (∀ i : Instr, execUnder c' i s = execUnder c i s) ∧
    stepUnder c' s = stepUnder c s ∧
    ∀ n u : Nat, runSteps c' n s = runSteps c n s ∧ operations c' n s = operations c n s ∧
      observe c' n u s = observe c n u s

/-- R10: `TRAVEL_MODE` has no effect on what is selected, on what any operation does or on any step. -/
def Obligations.TravelModeHasNoEffect : Prop :=
  ∀ (c : Config) (m : TravelMode) (s : State),
    s.selected { c with travelMode := m } = s.selected c ∧
    (∀ i : Instr, execUnder { c with travelMode := m } i s = execUnder c i s) ∧
    stepUnder { c with travelMode := m } s = stepUnder c s

/-- The machine handed to the host is the step relation with its configuration built in, which is well-formed (the
model's choice, log entry 2). -/
def Obligations.ExecAndStepRunTheBuiltConfiguration : Prop :=
  (∀ (i : Instr) (s : State), exec i s = execUnder Config.built i s) ∧
  (∀ s : State, step s = stepUnder Config.built s) ∧
  Config.built.WellFormed

/-! Selection and steps -/

/-- A step runs the selected operation on the state without what its selection used up: the environment's operation
where the stimulus word names one, else an operation the selection word enables. -/
def Obligations.StepRunsSelectedOperation : Prop :=
  (∀ (c : Config) (s : State), c.WellFormed →
    stepUnder c s = execUnder c (s.selected c) (s.consume c) ∧
    ((s.consume c).block = s.block ∧ (s.consume c).inputs = s.inputs.tail) ∧
    (∀ i, decodeStim (s.inputs.headD 0) = some i → s.selected c = i) ∧
    (decodeStim (s.inputs.headD 0) = none → s.selected c ∈ decodeSel (sel7 c s.block))) ∧
  (∀ s : State, step s = exec (s.selected Config.built) (s.consume Config.built))

/-- R53: the bits of the selection word, each from the state of the block, and its two sub-words. -/
def Obligations.SelectionWordCollectsTheConditions : Prop :=
  ∀ (c : Config) (b : Block),
    ((sel7 c b).getLsbD 6 = true ↔ b.phase = .hold) ∧
    (sel7 c b).getLsbD 5 = b.tickPend ∧
    (sel7 c b).getLsbD 4 = b.stepPend ∧
    ((sel7 c b).getLsbD 3 = true ↔ b.dirLat ≠ c.dirDecLevel) ∧
    ((sel7 c b).getLsbD 2 = true ↔ 0 < b.wait) ∧
    ((sel7 c b).getLsbD 1 = true ↔ (c.chunk : Int) ≤ b.rem.toInt) ∧
    ((sel7 c b).getLsbD 0 = true ↔ 0 < b.rem.toInt) ∧
    req3 (sel7 c b) = BitVec.ofBool b.tickPend ++ BitVec.ofBool b.stepPend ++ BitVec.ofBool (inc c b.dirLat) ∧
    hc2 (sel7 c b) =
      BitVec.ofBool (decide ((c.chunk : Int) ≤ b.rem.toInt)) ++ BitVec.ofBool (decide (0 < b.rem.toInt))

/-- R96 and R97, in words of the state: which operations the selection word of a block enables. -/
def Obligations.SelectionWordEnablesByState : Prop :=
  ∀ (c : Config) (b : Block), c.WellFormed →
    (.stepDec ∈ decodeSel (sel7 c b) ↔ b.phase = .idle ∧ b.stepPend = true ∧ inc c b.dirLat = false) ∧
    (.stepInc ∈ decodeSel (sel7 c b) ↔ b.phase = .idle ∧ b.stepPend = true ∧ inc c b.dirLat = true) ∧
    (.pulseStart ∈ decodeSel (sel7 c b) ↔ b.phase = .idle ∧ b.tickPend = true) ∧
    (.timeIdle ∈ decodeSel (sel7 c b) ↔ b.phase = .idle ∧ b.tickPend = false ∧ b.stepPend = false) ∧
    (.timeWait ∈ decodeSel (sel7 c b) ↔ b.phase = .hold ∧ 0 < b.wait) ∧
    (.holdChunk ∈ decodeSel (sel7 c b) ↔ b.phase = .hold ∧ b.wait = 0 ∧ (c.chunk : Int) ≤ b.rem.toInt) ∧
    (.holdUnit ∈ decodeSel (sel7 c b) ↔
      b.phase = .hold ∧ b.wait = 0 ∧ 0 < b.rem.toInt ∧ b.rem.toInt < (c.chunk : Int)) ∧
    (.pulseEnd ∈ decodeSel (sel7 c b) ↔ b.phase = .hold ∧ b.wait = 0 ∧ b.rem.toInt ≤ 0)

/-- R49: the normalised direction bit; the level of `dir_in` has no effect between edges. -/
def Obligations.DirectionBitComparesWithDecrementLevel : Prop :=
  (∀ (c : Config) (d : Level),
    (inc c d = true ↔ d ≠ c.dirDecLevel) ∧ (c.dirDecLevel = false → inc c d = d)) ∧
  (∀ d : Level, decodeStim (0b00#2 ++ BitVec.ofBool d) = none)

/-- R97: `TIME` is enabled exactly where no `EXEC` operation is. -/
def Obligations.TimePassesOnlyWhenNoExecOperationIsEnabled : Prop :=
  ∀ (c : Config) (b : Block), c.WellFormed →
    ((∃ i ∈ decodeSel (sel7 c b), i.isTime = true) ↔
      ¬ ∃ i ∈ decodeSel (sel7 c b), i.agent = some .exec)

/-- R83: while `phase = HOLD`, exactly one operation is enabled, and which; while `phase = IDLE`, `wait = 0`. -/
def Obligations.HoldEnablesExactlyOneOperation : Prop :=
  (∀ (c : Config) (b : Block), c.WellFormed → b.phase = .hold →
    decodeSel (sel7 c b) =
      [if 0 < b.wait then .timeWait
       else if (c.chunk : Int) ≤ b.rem.toInt then .holdChunk
       else if 0 < b.rem.toInt then .holdUnit
       else .pulseEnd]) ∧
  (∀ (c : Config) (s : State), s.Inv c → s.block.phase = .idle → s.block.wait = 0)

/-- R98, R90: with both requests pending in `IDLE`, the step operation and `PULSE_START` are both enabled and a step takes
either, as the free priority says: the step first, which moves `PW` before the pulse samples it, or the tick first,
whose pulse is loaded from the `PW` before the step. -/
def Obligations.SimultaneousRequestsAdmitBothOrders : Prop :=
  ∀ (c : Config) (s : State), c.WellFormed →
    s.block.phase = .idle → s.block.stepPend = true → s.block.tickPend = true →
    decodeStim (s.inputs.headD 0) = none →
    decodeSel (sel7 c s.block) = [if s.block.dirLat = c.dirDecLevel then .stepDec else .stepInc, .pulseStart] ∧
    (∃ t, stepUnder c { s with tieBreak := .stepFirst } = .next t ∧
      t.block.pw.toInt = max c.pwmMin (min c.pwmMax
        (if s.block.dirLat = c.dirDecLevel then s.block.pw.toInt - c.resolution
         else s.block.pw.toInt + c.resolution)) ∧
      t.block.stepPend = false ∧ t.block.tickPend = true ∧ t.block.phase = .idle ∧
      t.block.servoOut = s.block.servoOut ∧ t.block.rem = s.block.rem) ∧
    (∃ t, stepUnder c { s with tieBreak := .tickFirst } = .next t ∧
      t.block.stepPend = true ∧ t.block.dirLat = s.block.dirLat ∧ t.block.tickPend = false ∧
      t.block.phase = .hold ∧ t.block.servoOut = true ∧ t.block.pw = s.block.pw ∧
      (c.pwmMin ≤ s.block.pw.toInt → s.block.pw.toInt ≤ c.pwmMax →
        t.block.rem.toInt = s.block.pw.toInt + c.pulseOffset))

/-- R77, R83, R96, R97: each operation of `EXEC` and `CLK`, asked for in a state where its condition fails, does not
run; the environment's two are enabled in every state. That the answer is a refusal is the model's choice (log
entry 9). -/
def Obligations.DisabledOperationsDoNotRun : Prop :=
  ∀ (c : Config) (s : State), c.WellFormed →
    (¬ (s.block.phase = .idle ∧ s.block.stepPend = true ∧ s.block.dirLat = c.dirDecLevel) →
      execUnder c .stepDec s = .refused .notEnabled) ∧
    (¬ (s.block.phase = .idle ∧ s.block.stepPend = true ∧ s.block.dirLat ≠ c.dirDecLevel) →
      execUnder c .stepInc s = .refused .notEnabled) ∧
    (¬ (s.block.phase = .idle ∧ s.block.tickPend = true) → execUnder c .pulseStart s = .refused .notEnabled) ∧
    (¬ (s.block.phase = .idle ∧ s.block.tickPend = false ∧ s.block.stepPend = false) →
      execUnder c .timeIdle s = .refused .notEnabled) ∧
    (¬ (s.block.phase = .hold ∧ 0 < s.block.wait) → execUnder c .timeWait s = .refused .notEnabled) ∧
    (¬ (s.block.phase = .hold ∧ s.block.wait = 0 ∧ (c.chunk : Int) ≤ s.block.rem.toInt) →
      execUnder c .holdChunk s = .refused .notEnabled) ∧
    (¬ (s.block.phase = .hold ∧ s.block.wait = 0 ∧ 0 < s.block.rem.toInt ∧ s.block.rem.toInt < c.chunk) →
      execUnder c .holdUnit s = .refused .notEnabled) ∧
    (¬ (s.block.phase = .hold ∧ s.block.wait = 0 ∧ s.block.rem.toInt ≤ 0) →
      execUnder c .pulseEnd s = .refused .notEnabled)

/-- R56 (a), V2: the reserved pattern is no operation: the model faults on it. -/
def Obligations.ReservedPatternFaults : Prop :=
  (∀ s : State, exec .reservedUnreachable s = .fault .unreachableSelection) ∧
  (∀ (c : Config) (s : State), execUnder c .reservedUnreachable s = .fault .unreachableSelection)

/-- R56 (a) and (b): a well-formed block never forms the reserved pattern, and a reachable one has `wnz = 0` in
`IDLE`. -/
def Obligations.UnreachableSelectionsAreNeverFormed : Prop :=
  (∀ (c : Config) (b : Block), c.WellFormed → .reservedUnreachable ∉ decodeSel (sel7 c b)) ∧
  (∀ (c : Config) (s : State), s.Inv c → s.block.phase = .idle → (sel7 c s.block).getLsbD 2 = false)

/-- R110: there is no state from which the block cannot continue. -/
def Obligations.EveryStateHasANextStep : Prop :=
  (∀ (c : Config) (s : State), c.WellFormed → ∃ t, stepUnder c s = .next t) ∧
  (∀ s : State, ∃ t, step s = .next t)

/-! The operations. Each is stated under every well-formed configuration, and of `exec` under the one it is built
with. -/

/-- R111, R32: `RESET` puts every element at its reset value, whatever the state; its words are `1xx`. -/
def Obligations.ResetPutsEveryElementAtItsResetValue : Prop :=
  (∀ (c : Config) (s : State), c.WellFormed →
    ∃ (v : Word) (t : State),
      v.toInt = (if c.homePolarity = .homeAtMin then c.pwmMin else c.pwmMax) ∧
      t = { s with block :=
        { pw := v, homeOut := c.homeLevel, servoOut := false, stepPend := false, dirLat := false,
          tickPend := false, phase := .idle, rem := 0, wait := 0, tcnt := 0 } } ∧
      execUnder c .reset s = .next t ∧ (c = Config.built → exec .reset s = .next t)) ∧
  (∀ edge dir : Bool, decodeStim (1#1 ++ BitVec.ofBool edge ++ BitVec.ofBool dir) = some .reset)

/-- R112, R52: `RESET` overrides everything else: a stimulus word with `rst` set resets the block in any state. In a hold
whose units have all passed that is R111 and R112 against R113's "less than its `D`" (the model's choice, log entry
24). -/
def Obligations.ResetOverridesEverything : Prop :=
  ∀ (c : Config) (s : State) (w : Stim3) (rest : List Stim3), c.WellFormed → s.inputs = w :: rest →
    w.getLsbD 2 = true →
    stepUnder c s = .next { s with block := Block.atReset c, inputs := rest }

/-- R63: `EDGE(d)` latches one step request with its direction, in every state, and changes nothing else; where a request
is pending it changes nothing. -/
def Obligations.EdgeLatchesRequestAndDirection : Prop :=
  (∀ (c : Config) (s : State), c.WellFormed →
    ∃ t u : State,
      t = (if s.block.stepPend then s else { s with block := { s.block with stepPend := true, dirLat := false } }) ∧
      u = (if s.block.stepPend then s else { s with block := { s.block with stepPend := true, dirLat := true } }) ∧
      execUnder c .edge0 s = .next t ∧ (c = Config.built → exec .edge0 s = .next t) ∧
      execUnder c .edge1 s = .next u ∧ (c = Config.built → exec .edge1 s = .next u)) ∧
  decodeStim 0b010#3 = some .edge0 ∧ decodeStim 0b011#3 = some .edge1

/-- R64: `STEP_DEC`, when it is enabled and what it does. -/
def Obligations.StepDecSubtractsAndClamps : Prop :=
  ∀ (c : Config) (s : State), c.WellFormed →
    (.stepDec ∈ decodeSel (sel7 c s.block) ↔
      s.block.phase = .idle ∧ s.block.stepPend = true ∧ s.block.dirLat = c.dirDecLevel) ∧
    (s.block.phase = .idle → s.block.stepPend = true → s.block.dirLat = c.dirDecLevel →
      ∃ (v : Word) (t : State),
        v.toInt = max c.pwmMin (min c.pwmMax (s.block.pw.toInt - c.resolution)) ∧
        t = { s with block := { s.block with
          pw := v
          homeOut := if v.toInt = c.homeValue then c.homeLevel else !c.homeLevel
          stepPend := false } } ∧
        execUnder c .stepDec s = .next t ∧ (c = Config.built → exec .stepDec s = .next t))

/-- R65: `STEP_INC`, when it is enabled and what it does. -/
def Obligations.StepIncAddsAndClamps : Prop :=
  ∀ (c : Config) (s : State), c.WellFormed →
    (.stepInc ∈ decodeSel (sel7 c s.block) ↔
      s.block.phase = .idle ∧ s.block.stepPend = true ∧ s.block.dirLat ≠ c.dirDecLevel) ∧
    (s.block.phase = .idle → s.block.stepPend = true → s.block.dirLat ≠ c.dirDecLevel →
      ∃ (v : Word) (t : State),
        v.toInt = max c.pwmMin (min c.pwmMax (s.block.pw.toInt + c.resolution)) ∧
        t = { s with block := { s.block with
          pw := v
          homeOut := if v.toInt = c.homeValue then c.homeLevel else !c.homeLevel
          stepPend := false } } ∧
        execUnder c .stepInc s = .next t ∧ (c = Config.built → exec .stepInc s = .next t))

/-- R77: `TIME` in both of its rows, when it is enabled and what it does: the timer advances and its wrap latches a tick,
in a hold the running wait advances too, and a tick that finds its latch set is missed. -/
def Obligations.TimeAdvancesTimerAndWait : Prop :=
  ∀ (c : Config) (s : State), c.WellFormed →
    ((.timeIdle ∈ decodeSel (sel7 c s.block) ↔
        s.block.phase = .idle ∧ s.block.tickPend = false ∧ s.block.stepPend = false) ∧
      (.timeWait ∈ decodeSel (sel7 c s.block) ↔ s.block.phase = .hold ∧ 0 < s.block.wait)) ∧
    (s.block.phase = .idle → s.block.tickPend = false → s.block.stepPend = false →
      ∃ t : State, t = { s with block := { s.block with
        tcnt := if s.block.tcnt + 1 = c.period then 0 else s.block.tcnt + 1
        tickPend := decide (s.block.tcnt + 1 = c.period) } } ∧
        execUnder c .timeIdle s = .next t ∧ (c = Config.built → exec .timeIdle s = .next t)) ∧
    (s.block.phase = .hold → 0 < s.block.wait →
      ∃ t : State, t = { s with block := { s.block with
        wait := s.block.wait - 1
        tcnt := if s.block.tcnt + 1 = c.period then 0 else s.block.tcnt + 1
        tickPend := s.block.tickPend || decide (s.block.tcnt + 1 = c.period) } } ∧
        execUnder c .timeWait s = .next t ∧ (c = Config.built → exec .timeWait s = .next t))

/-- R79: `PULSE_START`, when it is enabled and what it does; the value loaded is exact for every `PW` in range (R13 (f),
R17). -/
def Obligations.PulseStartRaisesServoAndSamples : Prop :=
  ∀ (c : Config) (s : State), c.WellFormed →
    (.pulseStart ∈ decodeSel (sel7 c s.block) ↔ s.block.phase = .idle ∧ s.block.tickPend = true) ∧
    (s.block.phase = .idle → s.block.tickPend = true →
      ∃ (r : Word) (t : State),
        (c.pwmMin ≤ s.block.pw.toInt → s.block.pw.toInt ≤ c.pwmMax →
          r.toInt = s.block.pw.toInt + c.pulseOffset) ∧
        t = { s with block := { s.block with
          tickPend := false, servoOut := true, rem := r, wait := 0, phase := .hold } } ∧
        execUnder c .pulseStart s = .next t ∧ (c = Config.built → exec .pulseStart s = .next t))

/-- R80: `HOLD_CHUNK`, when it is enabled and what it does. -/
def Obligations.HoldChunkStartsAChunkWait : Prop :=
  ∀ (c : Config) (s : State), c.WellFormed →
    (.holdChunk ∈ decodeSel (sel7 c s.block) ↔
      s.block.phase = .hold ∧ s.block.wait = 0 ∧ (c.chunk : Int) ≤ s.block.rem.toInt) ∧
    (s.block.phase = .hold → s.block.wait = 0 → (c.chunk : Int) ≤ s.block.rem.toInt →
      ∃ (r : Word) (t : State), r.toInt = s.block.rem.toInt - c.chunk ∧
        t = { s with block := { s.block with wait := c.chunk, rem := r } } ∧
        execUnder c .holdChunk s = .next t ∧ (c = Config.built → exec .holdChunk s = .next t))

/-- R81: `HOLD_UNIT`, when it is enabled and what it does. -/
def Obligations.HoldUnitStartsAUnitWait : Prop :=
  ∀ (c : Config) (s : State), c.WellFormed →
    (.holdUnit ∈ decodeSel (sel7 c s.block) ↔
      s.block.phase = .hold ∧ s.block.wait = 0 ∧ 0 < s.block.rem.toInt ∧ s.block.rem.toInt < c.chunk) ∧
    (s.block.phase = .hold → s.block.wait = 0 → 0 < s.block.rem.toInt → s.block.rem.toInt < c.chunk →
      ∃ (r : Word) (t : State), r.toInt = s.block.rem.toInt - 1 ∧
        t = { s with block := { s.block with wait := 1, rem := r } } ∧
        execUnder c .holdUnit s = .next t ∧ (c = Config.built → exec .holdUnit s = .next t))

/-- R82: `PULSE_END`, when it is enabled and what it does; in a state of the invariant it finds `rem` at exactly 0. -/
def Obligations.PulseEndLowersServoAndReturns : Prop :=
  ∀ (c : Config) (s : State), c.WellFormed →
    (.pulseEnd ∈ decodeSel (sel7 c s.block) ↔
      s.block.phase = .hold ∧ s.block.wait = 0 ∧ s.block.rem.toInt ≤ 0) ∧
    (s.block.phase = .hold → s.block.wait = 0 → s.block.rem.toInt ≤ 0 →
      (∃ t : State, t = { s with block := { s.block with servoOut := false, phase := .idle } } ∧
        execUnder c .pulseEnd s = .next t ∧ (c = Config.built → exec .pulseEnd s = .next t)) ∧
      (s.Inv c → s.block.rem.toInt = 0))

/-- The writers of each element (R18, R19, R21 to R27): an operation that changes an element is one of those named for
it, and no operation changes what the model holds of the environment. `PULSE_START` writes `wait` (R79; log
entry 15). -/
def Obligations.EachElementHasOnlyItsWriters : Prop :=
  ∀ (c : Config) (i : Instr) (s t : State), execUnder c i s = .next t →
    (t.block.pw ≠ s.block.pw → i ∈ [Instr.reset, .stepDec, .stepInc]) ∧
    (t.block.homeOut ≠ s.block.homeOut → i ∈ [Instr.reset, .stepDec, .stepInc]) ∧
    (t.block.servoOut ≠ s.block.servoOut → i ∈ [Instr.reset, .pulseStart, .pulseEnd]) ∧
    (t.block.stepPend ≠ s.block.stepPend → i ∈ [Instr.reset, .edge0, .edge1, .stepDec, .stepInc]) ∧
    (t.block.dirLat ≠ s.block.dirLat → i ∈ [Instr.reset, .edge0, .edge1]) ∧
    (t.block.tickPend ≠ s.block.tickPend → i ∈ [Instr.reset, .timeIdle, .timeWait, .pulseStart]) ∧
    (t.block.phase ≠ s.block.phase → i ∈ [Instr.reset, .pulseStart, .pulseEnd]) ∧
    (t.block.rem ≠ s.block.rem → i ∈ [Instr.reset, .pulseStart, .holdChunk, .holdUnit]) ∧
    (t.block.wait ≠ s.block.wait → i ∈ [Instr.reset, .pulseStart, .holdChunk, .holdUnit, .timeWait]) ∧
    (t.block.tcnt ≠ s.block.tcnt → i ∈ [Instr.reset, .timeIdle, .timeWait]) ∧
    (t.inputs = s.inputs ∧ t.tieBreak = s.tieBreak ∧ t.draws = s.draws)

/-! The step accumulator -/

/-- R67: for a well-formed range the clamp is `max(PWM_MIN, min(PWM_MAX, t))`, and at most one of its two assignments
changes the value. -/
def Obligations.ClampIsMaxOfMin : Prop :=
  ∀ (c : Config) (t : Int), c.pwmMin < c.pwmMax →
    clamp c t = max c.pwmMin (min c.pwmMax t) ∧
    ((if t ≤ c.pwmMin then c.pwmMin else t) = t ∨ clamp c t = (if t ≤ c.pwmMin then c.pwmMin else t))

/-- R66, R69: the intermediate of a step fits `W` bits, so `W`-bit two's complement arithmetic gives it without
wrap. -/
def Obligations.StepIntermediateNeverWraps : Prop :=
  ∀ (c : Config) (b : Block), c.WellFormed → c.pwmMin ≤ b.pw.toInt → b.pw.toInt ≤ c.pwmMax →
    (c.pwmMin - c.resolution ≤ decTarget c b ∧ incTarget c b ≤ c.pwmMax + c.resolution) ∧
    (b.pw - BitVec.ofInt 16 c.resolution).toInt = decTarget c b ∧
    (b.pw + BitVec.ofInt 16 c.resolution).toInt = incTarget c b

/-- R75: a step keeps `PW` in range, and inside the range moves it by exactly `RES`. -/
def Obligations.StepStaysInRangeAndMovesByResolution : Prop :=
  ∀ (c : Config) (s t : State), c.pwmMin ≤ s.block.pw.toInt → s.block.pw.toInt ≤ c.pwmMax →
    (execUnder c .stepDec s = .next t →
      (c.pwmMin ≤ t.block.pw.toInt ∧ t.block.pw.toInt ≤ c.pwmMax) ∧
      (c.pwmMin + c.resolution ≤ s.block.pw.toInt →
        t.block.pw.toInt = s.block.pw.toInt - c.resolution)) ∧
    (execUnder c .stepInc s = .next t →
      (c.pwmMin ≤ t.block.pw.toInt ∧ t.block.pw.toInt ≤ c.pwmMax) ∧
      (s.block.pw.toInt ≤ c.pwmMax - c.resolution →
        t.block.pw.toInt = s.block.pw.toInt + c.resolution))

/-- R72: at a bound, any number of steps in the clamping direction leaves `PW` and the level of `home_out` as they
are. -/
def Obligations.StepsAtABoundAreAbsorbed : Prop :=
  ∀ (c : Config) (s : State) (n : Nat), s.Inv c → s.block.phase = .idle → s.block.stepPend = false →
    (s.block.pw.toInt = c.pwmMax →
      ∃ t, (Pseudo.steps n true).run c s = .next t ∧ t.block.pw = s.block.pw ∧ t.block.homeOut = s.block.homeOut) ∧
    (s.block.pw.toInt = c.pwmMin →
      ∃ t, (Pseudo.steps n false).run c s = .next t ∧ t.block.pw = s.block.pw ∧ t.block.homeOut = s.block.homeOut)

/-- R73: however many steps were absorbed at a bound, one step the other way moves `PW` by exactly `RES` from it. -/
def Obligations.ReversalMovesExactlyOneStepFromTheBound : Prop :=
  ∀ (c : Config) (s : State) (n : Nat), c.WellFormed → s.block.phase = .idle → s.block.stepPend = false →
    (s.block.pw.toInt = c.pwmMax →
      ∃ t u, (Pseudo.steps n true).run c s = .next t ∧ (Pseudo.step false).run c t = .next u ∧
        u.block.pw.toInt = c.pwmMax - c.resolution) ∧
    (s.block.pw.toInt = c.pwmMin →
      ∃ t u, (Pseudo.steps n false).run c s = .next t ∧ (Pseudo.step true).run c t = .next u ∧
        u.block.pw.toInt = c.pwmMin + c.resolution)

/-- R74: asserted after reset, deasserted by one step away from home, still asserted after one step toward home; and
after every step operation asserted exactly when `PW` is at the home extreme. -/
def Obligations.HomingLineFollowsTheHomeExtreme : Prop :=
  (∀ (c : Config) (s : State), c.WellFormed → s.block = Block.atReset c →
    s.block.homeOut = c.signalHome ∧
    (∃ t, (Pseudo.step (decide (c.homePolarity = .homeAtMin))).run c s = .next t ∧
      t.block.homeOut = c.signalNotHome) ∧
    (∃ t, (Pseudo.step (decide (c.homePolarity = .homeAtMax))).run c s = .next t ∧
      t.block.homeOut = c.signalHome ∧ t.block.pw = s.block.pw)) ∧
  (∀ (c : Config) (s t : State), execUnder c .stepDec s = .next t ∨ execUnder c .stepInc s = .next t →
    (t.block.homeOut = c.signalHome ↔ t.block.pw.toInt = c.homeValue))

/-- R76: `n` steps from one bound toward the other; the other bound is reached at step
`ceil((PWM_MAX - PWM_MIN) / RES)` and not before. -/
def Obligations.TravelTakesTheCeilingOfRangeOverResolution : Prop :=
  ∀ (c : Config) (s : State) (n : Nat), c.WellFormed → s.block.phase = .idle → s.block.stepPend = false →
    (s.block.pw.toInt = c.pwmMin →
      ∃ t, (Pseudo.steps n true).run c s = .next t ∧
        t.block.pw.toInt = min c.pwmMax (c.pwmMin + n * c.resolution) ∧
        (t.block.pw.toInt = c.pwmMax ↔ -((c.pwmMin - c.pwmMax) / c.resolution) ≤ (n : Int))) ∧
    (s.block.pw.toInt = c.pwmMax →
      ∃ t, (Pseudo.steps n false).run c s = .next t ∧
        t.block.pw.toInt = max c.pwmMin (c.pwmMax - n * c.resolution) ∧
        (t.block.pw.toInt = c.pwmMin ↔ -((c.pwmMin - c.pwmMax) / c.resolution) ≤ (n : Int)))

/-- R101: of the edges between two operations the first alone is latched: `n + 1` edges leave one request, with the
first one's direction. -/
def Obligations.EdgesBeforeServiceCoalesceToTheFirst : Prop :=
  ∀ (c : Config) (s : State) (d : Level) (ds : List Level) (rest : List Stim3), c.WellFormed →
    s.block.stepPend = false → s.inputs = (d :: ds).map (fun e => 0b01#2 ++ BitVec.ofBool e) ++ rest →
    runSteps c (ds.length + 1) s =
      .next { s with inputs := rest, block := { s.block with stepPend := true, dirLat := d } }

/-- R97, R101: an edge that finds the block idle with no request pending is served by the very next operation, before
any time passes. -/
def Obligations.IdleEdgeIsServedBeforeTimePasses : Prop :=
  ∀ (c : Config) (s : State) (d : Level), c.WellFormed → s.block.phase = .idle → s.block.stepPend = false →
    s.block.tickPend = false → s.inputs = [0b01#2 ++ BitVec.ofBool d] →
    operations c 3 s = [if d then .edge1 else .edge0, if d = c.dirDecLevel then .stepDec else .stepInc, .timeIdle]

/-! The pulse generator -/

/-- R84: the whole pulse: `D div CHUNK` chunk waits, `D mod CHUNK` unit waits, `D` units of time, and the state it
leaves; also where a step request is pending when it starts (R98, the tick first) and whatever edges come during the
hold, which only latch the first request (R83, R101). The step that takes `PULSE_START` has no stimulus, and no stimulus
is a reset (R113). -/
def Obligations.PulseDecomposesIntoChunksAndUnits : Prop :=
  ∀ (c : Config) (s : State), s.Inv c → s.block.phase = .idle → s.block.tickPend = true →
    (s.block.stepPend = true → s.tieBreak = .tickFirst) →
    decodeStim (s.inputs.headD 0) = none → (∀ w ∈ s.inputs, w.getLsbD 2 = false) →
    let d := (s.block.pw.toInt + c.pulseOffset).toNat
    let q := d / c.chunk
    let r := d % c.chunk
    ∃ (n : Nat) (edges : List Stim3),
      edges = (s.inputs.take n).filter (·.getLsbD 1) ∧
      n = q * (1 + c.chunk) + 2 * r + 2 + edges.length ∧
      (operations c n s).filter (fun i => i.agent != some .env) =
        [Instr.pulseStart] ++ (List.replicate q (Instr.holdChunk :: List.replicate c.chunk .timeWait)).flatten ++
          (List.replicate r [Instr.holdUnit, .timeWait]).flatten ++ [.pulseEnd] ∧
      (operations c n s).getLast? = some .pulseEnd ∧
      unitsElapsed c n s = d ∧
      (operations c n s).countP (fun i => i.agent == some .exec) = q + r + 2 ∧
      runSteps c n s = .next { s.consume c with
        inputs := s.inputs.drop n
        block := { s.block with
          tickPend := false, servoOut := false, phase := .idle, rem := 0, wait := 0, tcnt := d
          stepPend := s.block.stepPend || !edges.isEmpty
          dirLat := if s.block.stepPend then s.block.dirLat
            else (edges.head?.map (·.getLsbD 0)).getD s.block.dirLat } }

/-- R85, R125: what the environment observes of a pulse: the servo line active for exactly `PW + PULSE_OFFSET` units,
the value sampled at its start, and no other write; also where a step request is pending when it starts and whatever
edges come during the hold. -/
def Obligations.ObservedPulseLengthIsTheSampledWidth : Prop :=
  ∀ (c : Config) (s : State) (u : Nat), s.Inv c → s.block.phase = .idle → s.block.tickPend = true →
    (s.block.stepPend = true → s.tieBreak = .tickFirst) →
    decodeStim (s.inputs.headD 0) = none → (∀ w ∈ s.inputs, w.getLsbD 2 = false) →
    let d := (s.block.pw.toInt + c.pulseOffset).toNat
    (d : Int) = s.block.pw.toInt + c.pulseOffset ∧
    ∃ n : Nat, (operations c n s).head? = some .pulseStart ∧ (operations c n s).getLast? = some .pulseEnd ∧
      observe c n u s = [(u, .servoOut true), (u + d, .servoOut false)]

/-- R78, R114: after power-on with no stimulus, the first tick comes at unit `PERIOD` and not before. -/
def Obligations.FirstTickComesOnePeriodAfterReset : Prop :=
  ∀ c : Config, c.WellFormed →
    (∀ k < c.period, runSteps c k (State.powerOn c) =
      .next { State.powerOn c with block := { Block.atReset c with tcnt := k } }) ∧
    runSteps c c.period (State.powerOn c) =
      .next { State.powerOn c with block := { Block.atReset c with tickPend := true } }

/-- R88: no tick is ever missed: a wrap of the timer finds the block idle with the latch clear, time never passes
while a tick is pending, and a pulse starts with the timer at 0, where its tick left it. -/
def Obligations.NoTickIsEverMissed : Prop :=
  ∀ (c : Config) (s t : State), s.Inv c → stepUnder c s = .next t →
    ((s.selected c).isTime = true → s.block.tickPend = false) ∧
    ((s.selected c).isTime = true → s.block.tcnt + 1 = c.period →
      s.block.phase = .idle ∧ t.block.tickPend = true ∧ t.block.tcnt = 0) ∧
    (s.selected c = .pulseStart → s.block.tcnt = 0)

/-- R78, R86, R88: pulses come every `PERIOD` units. Whatever edges come, from a `PULSE_START` or a `RESET` to the next
`PULSE_START`, with no `RESET` between, exactly `PERIOD` units pass; where the environment lists no `RESET`, the next
`PULSE_START` comes; and with no stimulus at all the machine is after that in the very same state, one pulse over. The
first pulse after a `RESET` rests on `tcnt` = 0 there (R114, log entry 17). -/
def Obligations.PulsesRepeatEveryPeriod : Prop :=
  (∀ (c : Config) (s : State) (n : Nat) (i : Instr) (between : List Instr), s.Inv c →
    i ∈ [Instr.pulseStart, .reset] → operations c n s = i :: between ++ [.pulseStart] →
    (∀ j ∈ between, j ∉ [Instr.pulseStart, .reset]) → unitsElapsed c n s = c.period) ∧
  (∀ (c : Config) (s : State), s.Inv c → s.selected c ∈ [Instr.pulseStart, .reset] →
    (∀ w ∈ s.inputs.tail, w.getLsbD 2 = false) →
    ∃ (n : Nat) (between : List Instr), operations c n s = s.selected c :: between ++ [.pulseStart] ∧
      (∀ j ∈ between, j ∉ [Instr.pulseStart, .reset]) ∧ unitsElapsed c n s = c.period) ∧
  (∀ (c : Config) (s : State), s.Inv c → s.block.phase = .idle → s.block.tickPend = true →
    s.block.stepPend = false → s.inputs = [] →
    ∃ n, runSteps c n s = .next s ∧ unitsElapsed c n s = c.period ∧
      (operations c n s).count .pulseStart = 1 ∧ (operations c n s).count .pulseEnd = 1)

/-- R97: time keeps passing: with no further stimulus, one of the next four operations is `TIME`. -/
def Obligations.TimePassesWithinFourOperations : Prop :=
  ∀ (c : Config) (s : State), s.Inv c → s.inputs = [] → ∃ i ∈ operations c 4 s, i.isTime = true

/-- R118: a pending step is served at most `PWM_MAX + PULSE_OFFSET` units late: as long as no step operation (and no
`RESET`) has been taken, no more units than that have passed, whatever further edges come. -/
def Obligations.StepLatencyIsAtMostTheLongestHold : Prop :=
  ∀ (c : Config) (s t : State) (n : Nat), s.Inv c → s.block.stepPend = true → runSteps c n s = .next t →
    (∀ i ∈ operations c n s, i ∉ [Instr.reset, .stepDec, .stepInc]) →
    (unitsElapsed c n s : Int) ≤ c.pwmMax + c.pulseOffset

/-- R40, R90: outside reset, the step operations and `PULSE_START`, no operation reads or writes `PW`: a running pulse
keeps the width it sampled. -/
def Obligations.PulseKeepsTheSampledWidth : Prop :=
  ∀ (c : Config) (s t : State) (i : Instr) (v : Word),
    ({ s with block := { s.block with pw := v } } : State).selected c = s.selected c ∧
    (i ∉ [Instr.reset, .stepDec, .stepInc, .pulseStart] → execUnder c i s = .next t →
      t.block.pw = s.block.pw ∧
      execUnder c i { s with block := { s.block with pw := v } } =
        .next { t with block := { t.block with pw := v } })

/-- R29: no operation reads `home_out` or `servo_out`: what is selected and what becomes of everything else does not
depend on them; an operation that writes a line (R19, R27) gives it the same level whatever the lines were, and any
other leaves it as it was. -/
def Obligations.OutputLinesAreNeverRead : Prop :=
  ∀ (c : Config) (s : State) (h v : Level),
    ({ s with block := { s.block with homeOut := h, servoOut := v } } : State).selected c = s.selected c ∧
    ∀ (i : Instr) (t : State), execUnder c i s = .next t →
      execUnder c i { s with block := { s.block with homeOut := h, servoOut := v } } =
        .next { t with block := { t.block with
          homeOut := if i ∈ [Instr.reset, .stepDec, .stepInc] then t.block.homeOut else h
          servoOut := if i ∈ [Instr.reset, .pulseStart, .pulseEnd] then t.block.servoOut else v } }

/-- R91: the single-counter machine simulates the block: each operation is the same operation of it, or one of the two
wait operations, which it does not see; and what it enables the block enables, at once or after one wait operation. -/
def Obligations.SingleHoldCounterSimulatesTheBlock : Prop :=
  ∀ (c : Config) (s : State), s.Inv c →
    (∀ (i : Instr) (t : State), execUnder c i s = .next t →
      t.block.toCounter = s.block.toCounter.apply c i ∧
      (i = .holdChunk ∨ i = .holdUnit ∨ s.block.toCounter.enabled c i = true)) ∧
    (∀ i : Instr, s.block.toCounter.enabled c i = true →
      (∃ t, execUnder c i s = .next t) ∨
      ∃ j t u, (j = .holdChunk ∨ j = .holdUnit) ∧ execUnder c j s = .next t ∧ execUnder c i t = .next u)

/-! Traces and pseudo-instructions -/

/-- R59: a line `TIME n` of a full trace is legal exactly where `TIME` is enabled at each of its `n` steps: up to the
next tick in `IDLE` with no request pending, up to the end of the running wait in a hold, nowhere while a request is
pending in `IDLE`. -/
def Obligations.TimeLineIsLegalExactlyWhileTimeIsEnabled : Prop :=
  ∀ (c : Config) (s : State) (n : Nat) (pos : 1 ≤ n), s.Inv c →
    (s.block.phase = .idle → s.block.tickPend = false → s.block.stepPend = false →
      ((∃ t, runTrace c [.time n pos] s = .next t) ↔ s.block.tcnt + n ≤ c.period)) ∧
    (s.block.phase = .hold → ((∃ t, runTrace c [.time n pos] s = .next t) ↔ n ≤ s.block.wait)) ∧
    (s.block.phase = .idle → (s.block.tickPend = true ∨ s.block.stepPend = true) →
      ¬ ∃ t, runTrace c [.time n pos] s = .next t)

/-- R59: a stimulus trace stands for a full trace: what its run takes is a legal run of operations with just the
environment's operations and units it lists, those of `EXEC` filled in between. The last clause, that they are filled in
after the last line too, so that none that urgency determines is left, is the model's reading of R59, which speaks of the
operations between the lines (DEDUCED, log entry 21). -/
def Obligations.FilledStimulusTraceIsAFullTrace : Prop :=
  ∀ (c : Config) (ls : List TraceLine) (s t : State) (os : List Instr),
    runStimulus c ls s = ⟨os, .next t⟩ →
      runOperations c os s = .next t ∧
      os.flatMap listedInstr = ls.flatMap (·.listed c) ∧
      forcedOp c t.block = none

/-- R59: a full trace, which writes every operation out, ends in the same state when it is run as a stimulus trace; and
where no `RESET` stands directly after an edge, the operations taken are those it writes out and no others. Before an edge
that a `RESET` follows directly, the model's reading of R59 fills in what urgency determines (DEDUCED, log entry 21),
which that `RESET` then undoes. -/
def Obligations.FullTraceEndsInTheSameState : Prop :=
  ∀ (c : Config) (ls : List TraceLine) (s t : State),
    runTrace c ls s = .next t → dueOps c t.block = [] →
      (runStimulus c ls s).outcome = .next t ∧
      ((¬ ∃ (before after : List TraceLine) (increment : Bool), ls = before ++ .edge increment :: .reset :: after) →
        (runStimulus c ls s).ops.map writtenInstr = ls.flatMap (·.written c))

/-- R59, R97: the operations of `EXEC` that urgency fills in (programs P1 and P3): edges presented one after the other
in `IDLE` are each served at once; a line `TIME D` at a tick is the whole pulse; where two operations are enabled and
the trace does not say which, time does not pass. -/
def Obligations.UrgencyFillsInTheExecOperations : Prop :=
  (∀ (c : Config) (s : State) (n : Nat), c.WellFormed → s.block.phase = .idle → s.block.stepPend = false →
    s.block.tickPend = false → c.pwmMin ≤ s.block.pw.toInt → s.block.pw.toInt ≤ c.pwmMax →
    (∃ t, (runStimulus c (List.replicate n (.edge true)) s).outcome = .next t ∧
      t.block.pw.toInt = min c.pwmMax (s.block.pw.toInt + n * c.resolution)) ∧
    (∃ t, (runStimulus c (List.replicate n (.edge false)) s).outcome = .next t ∧
      t.block.pw.toInt = max c.pwmMin (s.block.pw.toInt - n * c.resolution))) ∧
  (∀ (c : Config) (s : State) (d : Nat) (pos : 1 ≤ d), s.Inv c → s.block.phase = .idle →
    s.block.tickPend = true → s.block.stepPend = false → (d : Int) = s.block.pw.toInt + c.pulseOffset →
    (runStimulus c [.time d pos] s).outcome = .next { s with block := { s.block with
      tickPend := false, servoOut := false, phase := .idle, rem := 0, wait := 0, tcnt := d } }) ∧
  (∀ (c : Config) (s : State) (n : Nat) (pos : 1 ≤ n), s.block.phase = .idle → s.block.tickPend = true →
    s.block.stepPend = true → (runStimulus c [.time n pos] s).outcome = .refused .choiceNotWritten)

/-- R60, R83: `STEP INC` and `STEP DEC` taken in a hold with no request pending: the edge is latched, and the step it
latched is served as soon as `phase = IDLE`. That the expansion then carries the rest of the hold, the running wait, the
hold operations and `PULSE_END`, is the model's reading of R60's "as soon as" (DEDUCED, log entry 22). -/
def Obligations.StepInAHoldIsServedWhenTheHoldEnds : Prop :=
  ∀ (c : Config) (s : State) (increment : Bool), s.Inv c → s.block.phase = .hold → s.block.stepPend = false →
    ∃ v : Word,
      v.toInt = max c.pwmMin (min c.pwmMax
        (if increment then s.block.pw.toInt + c.resolution else s.block.pw.toInt - c.resolution)) ∧
      (Pseudo.step increment).run c s = .next { s with block := { s.block with
        pw := v
        homeOut := if v.toInt = c.homeValue then c.homeLevel else !c.homeLevel
        servoOut := false
        dirLat := if increment then !c.dirDecLevel else c.dirDecLevel
        phase := .idle
        rem := 0
        wait := 0
        tcnt := s.block.tcnt + s.block.wait + s.block.rem.toInt.toNat } }

/-- R60: the pseudo-instruction `TICK` runs, from an idle state with no request pending, to the end of the pulse of the
next tick. -/
def Obligations.TickExpansionRunsToTheEndOfThePulse : Prop :=
  ∀ (c : Config) (s : State), s.Inv c → s.block.phase = .idle → s.block.tickPend = false →
    s.block.stepPend = false →
    Pseudo.tick.run c s = .next { s with block := { s.block with
      servoOut := false, phase := .idle, rem := 0, wait := 0,
      tcnt := (s.block.pw.toInt + c.pulseOffset).toNat } }

/-! Invariants -/

/-- The invariant of the block holds after power-on under every well-formed configuration, and at `State.reset` under
the one it is built with. -/
def Obligations.InvariantHoldsAfterReset : Prop :=
  (∀ c : Config, c.WellFormed → (State.powerOn c).Inv c) ∧ State.reset.Inv Config.built

/-- Every step keeps the invariant of the block: `PW` in range (R17), `home_out` (R20), `servo_out` (R27), the counts
in their ranges (R25, R26), and what R88 rests on. -/
def Obligations.EveryStepKeepsTheInvariant : Prop :=
  (∀ (c : Config) (s t : State), s.Inv c → stepUnder c s = .next t → t.Inv c) ∧
  (∀ s t : State, s.Inv Config.built → step s = .next t → t.Inv Config.built)

/-- R17: from power-on, under any stimulus, every reachable state has `PW` in range. -/
def Obligations.ReachableStatesKeepPulseWidthInRange : Prop :=
  ∀ (c : Config) (stim : List Stim3) (n : Nat) (t : State), c.WellFormed →
    runSteps c n { State.powerOn c with inputs := stim } = .next t →
    c.pwmMin ≤ t.block.pw.toInt ∧ t.block.pw.toInt ≤ c.pwmMax
end

