-- ==== Sys2Proof/Laws/State.lean ====
section
/-! SUPPORT. What each update of the state leaves in each field: one lemma per field per update. -/

namespace Sys2Proof.Machine

/-! `Block.latchStep` -/

@[simp] theorem Block.latchStep_pw (d : Level) (b : Block) : (b.latchStep d).pw = b.pw := rfl
@[simp] theorem Block.latchStep_homeOut (d : Level) (b : Block) : (b.latchStep d).homeOut = b.homeOut := rfl
@[simp] theorem Block.latchStep_servoOut (d : Level) (b : Block) : (b.latchStep d).servoOut = b.servoOut := rfl
@[simp] theorem Block.latchStep_stepPend (d : Level) (b : Block) : (b.latchStep d).stepPend = true := rfl
@[simp] theorem Block.latchStep_dirLat (d : Level) (b : Block) : (b.latchStep d).dirLat =
    (if b.stepPend then b.dirLat else d) := rfl
@[simp] theorem Block.latchStep_tickPend (d : Level) (b : Block) : (b.latchStep d).tickPend = b.tickPend := rfl
@[simp] theorem Block.latchStep_phase (d : Level) (b : Block) : (b.latchStep d).phase = b.phase := rfl
@[simp] theorem Block.latchStep_rem (d : Level) (b : Block) : (b.latchStep d).rem = b.rem := rfl
@[simp] theorem Block.latchStep_wait (d : Level) (b : Block) : (b.latchStep d).wait = b.wait := rfl
@[simp] theorem Block.latchStep_tcnt (d : Level) (b : Block) : (b.latchStep d).tcnt = b.tcnt := rfl

/-! `Block.serveStep` -/

@[simp] theorem Block.serveStep_pw (c : Config) (t : Int) (b : Block) : (b.serveStep c t).pw =
    (toWord (clamp c t)) := rfl
@[simp] theorem Block.serveStep_homeOut (c : Config) (t : Int) (b : Block) : (b.serveStep c t).homeOut =
    (homeFlag c (clamp c t)) := rfl
@[simp] theorem Block.serveStep_servoOut (c : Config) (t : Int) (b : Block) : (b.serveStep c t).servoOut =
    b.servoOut := rfl
@[simp] theorem Block.serveStep_stepPend (c : Config) (t : Int) (b : Block) : (b.serveStep c t).stepPend =
    false := rfl
@[simp] theorem Block.serveStep_dirLat (c : Config) (t : Int) (b : Block) : (b.serveStep c t).dirLat = b.dirLat := rfl
@[simp] theorem Block.serveStep_tickPend (c : Config) (t : Int) (b : Block) : (b.serveStep c t).tickPend =
    b.tickPend := rfl
@[simp] theorem Block.serveStep_phase (c : Config) (t : Int) (b : Block) : (b.serveStep c t).phase = b.phase := rfl
@[simp] theorem Block.serveStep_rem (c : Config) (t : Int) (b : Block) : (b.serveStep c t).rem = b.rem := rfl
@[simp] theorem Block.serveStep_wait (c : Config) (t : Int) (b : Block) : (b.serveStep c t).wait = b.wait := rfl
@[simp] theorem Block.serveStep_tcnt (c : Config) (t : Int) (b : Block) : (b.serveStep c t).tcnt = b.tcnt := rfl

/-! `Block.elapse` -/

@[simp] theorem Block.elapse_pw (c : Config) (b : Block) : (b.elapse c).pw = b.pw := rfl
@[simp] theorem Block.elapse_homeOut (c : Config) (b : Block) : (b.elapse c).homeOut = b.homeOut := rfl
@[simp] theorem Block.elapse_servoOut (c : Config) (b : Block) : (b.elapse c).servoOut = b.servoOut := rfl
@[simp] theorem Block.elapse_stepPend (c : Config) (b : Block) : (b.elapse c).stepPend = b.stepPend := rfl
@[simp] theorem Block.elapse_dirLat (c : Config) (b : Block) : (b.elapse c).dirLat = b.dirLat := rfl
@[simp] theorem Block.elapse_tickPend (c : Config) (b : Block) : (b.elapse c).tickPend =
    (if b.tcnt + 1 = c.period then true else b.tickPend) := rfl
@[simp] theorem Block.elapse_phase (c : Config) (b : Block) : (b.elapse c).phase = b.phase := rfl
@[simp] theorem Block.elapse_rem (c : Config) (b : Block) : (b.elapse c).rem = b.rem := rfl
@[simp] theorem Block.elapse_wait (c : Config) (b : Block) : (b.elapse c).wait =
    (if b.phase = .hold then b.wait - 1 else b.wait) := rfl
@[simp] theorem Block.elapse_tcnt (c : Config) (b : Block) : (b.elapse c).tcnt =
    (if b.tcnt + 1 = c.period then 0 else b.tcnt + 1) := rfl

/-! `Block.enterHold` -/

@[simp] theorem Block.enterHold_pw (c : Config) (b : Block) : (b.enterHold c).pw = b.pw := rfl
@[simp] theorem Block.enterHold_homeOut (c : Config) (b : Block) : (b.enterHold c).homeOut = b.homeOut := rfl
@[simp] theorem Block.enterHold_servoOut (c : Config) (b : Block) : (b.enterHold c).servoOut = servoActive := rfl
@[simp] theorem Block.enterHold_stepPend (c : Config) (b : Block) : (b.enterHold c).stepPend = b.stepPend := rfl
@[simp] theorem Block.enterHold_dirLat (c : Config) (b : Block) : (b.enterHold c).dirLat = b.dirLat := rfl
@[simp] theorem Block.enterHold_tickPend (c : Config) (b : Block) : (b.enterHold c).tickPend = false := rfl
@[simp] theorem Block.enterHold_phase (c : Config) (b : Block) : (b.enterHold c).phase = Phase.hold := rfl
@[simp] theorem Block.enterHold_rem (c : Config) (b : Block) : (b.enterHold c).rem = (toWord (holdRequest c b)) := rfl
@[simp] theorem Block.enterHold_wait (c : Config) (b : Block) : (b.enterHold c).wait = 0 := rfl
@[simp] theorem Block.enterHold_tcnt (c : Config) (b : Block) : (b.enterHold c).tcnt = b.tcnt := rfl

/-! `Block.startWait` -/

@[simp] theorem Block.startWait_pw (n : Nat) (b : Block) : (b.startWait n).pw = b.pw := rfl
@[simp] theorem Block.startWait_homeOut (n : Nat) (b : Block) : (b.startWait n).homeOut = b.homeOut := rfl
@[simp] theorem Block.startWait_servoOut (n : Nat) (b : Block) : (b.startWait n).servoOut = b.servoOut := rfl
@[simp] theorem Block.startWait_stepPend (n : Nat) (b : Block) : (b.startWait n).stepPend = b.stepPend := rfl
@[simp] theorem Block.startWait_dirLat (n : Nat) (b : Block) : (b.startWait n).dirLat = b.dirLat := rfl
@[simp] theorem Block.startWait_tickPend (n : Nat) (b : Block) : (b.startWait n).tickPend = b.tickPend := rfl
@[simp] theorem Block.startWait_phase (n : Nat) (b : Block) : (b.startWait n).phase = b.phase := rfl
@[simp] theorem Block.startWait_rem (n : Nat) (b : Block) : (b.startWait n).rem = (toWord (b.rem.toInt - n)) := rfl
@[simp] theorem Block.startWait_wait (n : Nat) (b : Block) : (b.startWait n).wait = n := rfl
@[simp] theorem Block.startWait_tcnt (n : Nat) (b : Block) : (b.startWait n).tcnt = b.tcnt := rfl

/-! `Block.leaveHold` -/

@[simp] theorem Block.leaveHold_pw (b : Block) : b.leaveHold.pw = b.pw := rfl
@[simp] theorem Block.leaveHold_homeOut (b : Block) : b.leaveHold.homeOut = b.homeOut := rfl
@[simp] theorem Block.leaveHold_servoOut (b : Block) : b.leaveHold.servoOut = servoInactive := rfl
@[simp] theorem Block.leaveHold_stepPend (b : Block) : b.leaveHold.stepPend = b.stepPend := rfl
@[simp] theorem Block.leaveHold_dirLat (b : Block) : b.leaveHold.dirLat = b.dirLat := rfl
@[simp] theorem Block.leaveHold_tickPend (b : Block) : b.leaveHold.tickPend = b.tickPend := rfl
@[simp] theorem Block.leaveHold_phase (b : Block) : b.leaveHold.phase = Phase.idle := rfl
@[simp] theorem Block.leaveHold_rem (b : Block) : b.leaveHold.rem = b.rem := rfl
@[simp] theorem Block.leaveHold_wait (b : Block) : b.leaveHold.wait = b.wait := rfl
@[simp] theorem Block.leaveHold_tcnt (b : Block) : b.leaveHold.tcnt = b.tcnt := rfl

/-! `Block.atReset` -/

@[simp] theorem Block.atReset_pw (c : Config) : (Block.atReset c).pw = (toWord c.homeValue) := rfl
@[simp] theorem Block.atReset_homeOut (c : Config) : (Block.atReset c).homeOut = c.signalHome := rfl
@[simp] theorem Block.atReset_servoOut (c : Config) : (Block.atReset c).servoOut = servoInactive := rfl
@[simp] theorem Block.atReset_stepPend (c : Config) : (Block.atReset c).stepPend = false := rfl
@[simp] theorem Block.atReset_dirLat (c : Config) : (Block.atReset c).dirLat = false := rfl
@[simp] theorem Block.atReset_tickPend (c : Config) : (Block.atReset c).tickPend = false := rfl
@[simp] theorem Block.atReset_phase (c : Config) : (Block.atReset c).phase = Phase.idle := rfl
@[simp] theorem Block.atReset_rem (c : Config) : (Block.atReset c).rem = 0 := rfl
@[simp] theorem Block.atReset_wait (c : Config) : (Block.atReset c).wait = 0 := rfl
@[simp] theorem Block.atReset_tcnt (c : Config) : (Block.atReset c).tcnt = 0 := rfl

/-! `State.consume` -/

@[simp] theorem State.consume_block (c : Config) (s : State) : (s.consume c).block = s.block := rfl
@[simp] theorem State.consume_inputs (c : Config) (s : State) : (s.consume c).inputs = s.inputs.tail := rfl
@[simp] theorem State.consume_tieBreak (c : Config) (s : State) :
    (s.consume c).tieBreak = (if s.arbitrates c then Config.freePriority s.draws else s.tieBreak) := rfl
@[simp] theorem State.consume_draws (c : Config) (s : State) :
    (s.consume c).draws = (if s.arbitrates c then s.draws + 1 else s.draws) := rfl

/-! `State.powerOn` -/

@[simp] theorem State.powerOn_block (c : Config) : (State.powerOn c).block = Block.atReset c := rfl
@[simp] theorem State.powerOn_inputs (c : Config) : (State.powerOn c).inputs = [] := rfl

/-! `Block.withSel` -/

@[simp] theorem Block.withSel_pw (c : Config) (w : Sel7) (b : Block) : (b.withSel c w).pw = b.pw := rfl
@[simp] theorem Block.withSel_homeOut (c : Config) (w : Sel7) (b : Block) : (b.withSel c w).homeOut = b.homeOut := rfl
@[simp] theorem Block.withSel_servoOut (c : Config) (w : Sel7) (b : Block) : (b.withSel c w).servoOut = b.servoOut := rfl
@[simp] theorem Block.withSel_stepPend (c : Config) (w : Sel7) (b : Block) :
    (b.withSel c w).stepPend = (w.getLsbD 4) := rfl
@[simp] theorem Block.withSel_dirLat (c : Config) (w : Sel7) (b : Block) :
    (b.withSel c w).dirLat = (dirLevel c (w.getLsbD 3)) := rfl
@[simp] theorem Block.withSel_tickPend (c : Config) (w : Sel7) (b : Block) :
    (b.withSel c w).tickPend = (w.getLsbD 5) := rfl
@[simp] theorem Block.withSel_phase (c : Config) (w : Sel7) (b : Block) :
    (b.withSel c w).phase = (if w.getLsbD 6 then .hold else .idle) := rfl
@[simp] theorem Block.withSel_rem (c : Config) (w : Sel7) (b : Block) :
    (b.withSel c w).rem = (remFor c b (w.getLsbD 1) (w.getLsbD 0)) := rfl
@[simp] theorem Block.withSel_wait (c : Config) (w : Sel7) (b : Block) :
    (b.withSel c w).wait = (if w.getLsbD 2 then max 1 b.wait else 0) := rfl
@[simp] theorem Block.withSel_tcnt (c : Config) (w : Sel7) (b : Block) : (b.withSel c w).tcnt = b.tcnt := rfl

end Sys2Proof.Machine
end

