-- ==== Sys2Proof/Laws/Ops.lean ====
section
/-! SUPPORT. One lemma for each shared operation that says what it can do: the word arithmetic, the clamp, the
direction, the one way a meaning answers, the step and its runs. -/

namespace Sys2Proof.Machine

/-- A register holds every integer of the signed range exactly. -/
theorem toInt_toWord {z : Int} (lo : minSigned ≤ z) (hi : z ≤ maxSigned) : (toWord z).toInt = z := by
  simp only [minSigned, maxSigned, Width] at lo hi
  simp only [toWord, Width, BitVec.toInt_ofInt]
  exact Int.bmod_eq_of_le (by omega) (by omega)

/-- A register's value lies in the signed range. -/
theorem word_toInt_bounds (w : Word) : minSigned ≤ w.toInt ∧ w.toInt ≤ maxSigned := by
  have lo := BitVec.le_toInt w
  have hi := BitVec.toInt_lt (x := w)
  simp only [minSigned, maxSigned, Width] at *
  omega

/-- A register holding zero. -/
theorem word_eq_zero_iff (w : Word) : w = 0 ↔ w.toInt = 0 := by
  rw [← BitVec.toInt_inj]; rfl

/-- What well-formedness says, in plain inequalities. -/
theorem wellFormed_bounds {c : Config} (h : c.WellFormed) :
    1 ≤ c.resolution ∧ c.pwmMin < c.pwmMax ∧ c.resolution ≤ c.pwmMax - c.pwmMin ∧ 0 ≤ c.pwmMin ∧
      minSigned ≤ c.pwmMin - c.resolution ∧ c.pwmMax + c.resolution ≤ maxSigned ∧ 1 ≤ c.chunk ∧
      0 ≤ c.pulseOffset ∧ c.pwmMax + c.pulseOffset ≤ maxSigned ∧
      c.pwmMax + c.pulseOffset < (c.period : Int) ∧ 0 ≤ c.pulseTol := by
  obtain ⟨a, ⟨b, b'⟩, d, ⟨e, e'⟩, f, ⟨g, g'⟩, i, j⟩ := h
  exact ⟨a, b, b', d, e, e', f, g, g', i, j⟩

theorem clamp_ge_min {c : Config} (h : c.pwmMin < c.pwmMax) (t : Int) : c.pwmMin ≤ clamp c t := by
  unfold clamp; dsimp only; split_ifs <;> omega

theorem clamp_le_max {c : Config} (h : c.pwmMin < c.pwmMax) (t : Int) : clamp c t ≤ c.pwmMax := by
  unfold clamp; dsimp only; split_ifs <;> omega

/-- Inside the range the clamp changes nothing. -/
theorem clamp_of_mem {c : Config} {t : Int} (lo : c.pwmMin ≤ t) (hi : t ≤ c.pwmMax) : clamp c t = t := by
  unfold clamp; dsimp only; split_ifs <;> omega

/-- A clamped value is held exactly by `PW`. -/
theorem toInt_toWord_clamp {c : Config} (h : c.WellFormed) (t : Int) : (toWord (clamp c t)).toInt = clamp c t := by
  obtain ⟨_, hlt, _, hmin, _, hmax, _⟩ := wellFormed_bounds h
  have lo := clamp_ge_min hlt t
  have hi := clamp_le_max hlt t
  refine toInt_toWord ?_ ?_ <;> simp only [minSigned, maxSigned, Width] at * <;> omega

@[simp] theorem inc_dirLevel (c : Config) (increment : Bool) : inc c (dirLevel c increment) = increment := by
  unfold inc dirLevel; cases increment <;> cases c.dirDecLevel <;> rfl

@[simp] theorem dirLevel_inc (c : Config) (d : Level) : dirLevel c (inc c d) = d := by
  unfold inc dirLevel; cases d <;> cases c.dirDecLevel <;> rfl

theorem inc_eq_false_iff (c : Config) (d : Level) : inc c d = false ↔ d = c.dirDecLevel := by
  unfold inc; cases d <;> cases c.dirDecLevel <;> decide

theorem inc_eq_true_iff (c : Config) (d : Level) : inc c d = true ↔ d ≠ c.dirDecLevel := by
  unfold inc; cases d <;> cases c.dirDecLevel <;> decide

/-! When each operation is enabled, as a proposition over the fields (R96, R97). -/

@[simp] theorem enabled_reset (c : Config) (b : Block) : enabled c b .reset = true := rfl

@[simp] theorem enabled_edge0 (c : Config) (b : Block) : enabled c b .edge0 = true := rfl

@[simp] theorem enabled_edge1 (c : Config) (b : Block) : enabled c b .edge1 = true := rfl

@[simp] theorem enabled_stepDec (c : Config) (b : Block) :
    enabled c b .stepDec = true ↔ b.phase = .idle ∧ b.stepPend = true ∧ inc c b.dirLat = false := by
  simp [enabled, and_assoc]

@[simp] theorem enabled_stepInc (c : Config) (b : Block) :
    enabled c b .stepInc = true ↔ b.phase = .idle ∧ b.stepPend = true ∧ inc c b.dirLat = true := by
  simp [enabled, and_assoc]

@[simp] theorem enabled_pulseStart (c : Config) (b : Block) :
    enabled c b .pulseStart = true ↔ b.phase = .idle ∧ b.tickPend = true := by
  simp [enabled]

@[simp] theorem enabled_timeIdle (c : Config) (b : Block) :
    enabled c b .timeIdle = true ↔ b.phase = .idle ∧ b.tickPend = false ∧ b.stepPend = false := by
  simp [enabled, and_assoc]

@[simp] theorem enabled_timeWait (c : Config) (b : Block) :
    enabled c b .timeWait = true ↔ b.phase = .hold ∧ 0 < b.wait := by
  simp [enabled]

@[simp] theorem enabled_holdChunk (c : Config) (b : Block) :
    enabled c b .holdChunk = true ↔ b.phase = .hold ∧ b.wait = 0 ∧ (c.chunk : Int) ≤ b.rem.toInt := by
  simp [enabled, and_assoc]

@[simp] theorem enabled_holdUnit (c : Config) (b : Block) :
    enabled c b .holdUnit = true ↔
      b.phase = .hold ∧ b.wait = 0 ∧ 0 < b.rem.toInt ∧ b.rem.toInt < (c.chunk : Int) := by
  simp [enabled, and_assoc]

@[simp] theorem enabled_pulseEnd (c : Config) (b : Block) :
    enabled c b .pulseEnd = true ↔ b.phase = .hold ∧ b.wait = 0 ∧ b.rem.toInt ≤ 0 := by
  simp [enabled, and_assoc]

@[simp] theorem enabled_reservedUnreachable (c : Config) (b : Block) :
    enabled c b .reservedUnreachable = false := rfl

/-- Everything a meaning's answer can be. -/
theorem perform_cases (s : State) (c : Config) (i : Instr) (effect : Block → Block) :
    (¬ c.WellFormed ∧ s.perform c i effect = .refused .illFormedConfig) ∨
    (c.WellFormed ∧ enabled c s.block i = false ∧ s.perform c i effect = .refused .notEnabled) ∨
    (c.WellFormed ∧ enabled c s.block i = true ∧
      s.perform c i effect = .next { s with block := effect s.block }) := by
  unfold State.perform
  by_cases hw : c.WellFormed
  · cases he : enabled c s.block i
    · exact .inr (.inl ⟨hw, rfl, by simp only [if_pos hw, Bool.false_eq_true, if_false]⟩)
    · exact .inr (.inr ⟨hw, rfl, by simp only [if_pos hw, if_true]⟩)
  · exact .inl ⟨hw, if_neg hw⟩

/-- A meaning answers a next state exactly where it is enabled under a well-formed configuration. -/
theorem perform_eq_next_iff (s t : State) (c : Config) (i : Instr) (effect : Block → Block) :
    s.perform c i effect = .next t ↔
      c.WellFormed ∧ enabled c s.block i = true ∧ t = { s with block := effect s.block } := by
  rcases perform_cases s c i effect with ⟨hw, h⟩ | ⟨hw, he, h⟩ | ⟨hw, he, h⟩
  · simp [h, hw]
  · simp [h, he]
  · rw [h]
    constructor
    · intro ht; exact ⟨hw, he, (Host.Outcome.next.inj ht).symm⟩
    · rintro ⟨-, -, rfl⟩; rfl

/-- A meaning performed where it is enabled. -/
theorem perform_of_enabled {s : State} {c : Config} {i : Instr} {effect : Block → Block} (hw : c.WellFormed)
    (he : enabled c s.block i = true) :
    s.perform c i effect = .next { s with block := effect s.block } :=
  (perform_eq_next_iff s _ c i effect).2 ⟨hw, he, rfl⟩

/-- The effect of each operation on the block; the reserved pattern has none. -/
def effectOf : Instr → Config → Block → Block
  | .reset, c, _ => Block.atReset c
  | .edge0, _, b => b.latchStep false
  | .edge1, _, b => b.latchStep true
  | .stepDec, c, b => b.serveStep c (decTarget c b)
  | .stepInc, c, b => b.serveStep c (incTarget c b)
  | .pulseStart, c, b => b.enterHold c
  | .timeIdle, c, b => b.elapse c
  | .timeWait, c, b => b.elapse c
  | .holdChunk, c, b => b.startWait c.chunk
  | .holdUnit, _, b => b.startWait 1
  | .pulseEnd, _, b => b.leaveHold
  | .reservedUnreachable, _, b => b

/-- Every operation of the closed list is performed by the one shared rule. -/
theorem execUnder_eq_perform {i : Instr} (hi : i.WellFormed) (c : Config) (s : State) :
    execUnder c i s = s.perform c i (effectOf i c) := by
  cases i <;> first | rfl | exact absurd rfl hi

/-- Everything an operation can do when it answers a next state. -/
theorem execUnder_eq_next_iff (c : Config) (i : Instr) (s t : State) :
    execUnder c i s = .next t ↔
      c.WellFormed ∧ enabled c s.block i = true ∧ t = { s with block := effectOf i c s.block } := by
  by_cases hi : i = .reservedUnreachable
  · subst hi
    constructor
    · intro h; cases h
    · rintro ⟨-, h, -⟩; cases h
  · rw [execUnder_eq_perform hi, perform_eq_next_iff]

/-- An operation taken where it is enabled. -/
theorem execUnder_of_enabled {c : Config} {i : Instr} {s : State} (hw : c.WellFormed)
    (he : enabled c s.block i = true) : execUnder c i s = .next { s with block := effectOf i c s.block } :=
  (execUnder_eq_next_iff c i s _).2 ⟨hw, he, rfl⟩

/-- Everything a step can do when it answers a next state. -/
theorem stepUnder_eq_next_iff (c : Config) (s t : State) :
    stepUnder c s = .next t ↔
      c.WellFormed ∧ enabled c s.block (s.selected c) = true ∧
        t = { s.consume c with block := effectOf (s.selected c) c s.block } := by
  unfold stepUnder
  by_cases hw : c.WellFormed
  · rw [if_pos hw, execUnder_eq_next_iff]; simp only [State.consume_block]
  · simp [hw]

theorem runSteps_zero (c : Config) (s : State) : runSteps c 0 s = .next s := rfl

/-- A run's first step. -/
theorem runSteps_succ_of_next {c : Config} {s t : State} (h : stepUnder c s = .next t) (n : Nat) :
    runSteps c (n + 1) s = runSteps c n t := by
  simp only [runSteps, h]

/-- A run that reaches a state, taken apart at its first step. -/
theorem runSteps_succ_eq_next {c : Config} {n : Nat} {s u : State} (h : runSteps c (n + 1) s = .next u) :
    ∃ t, stepUnder c s = .next t ∧ runSteps c n t = .next u := by
  simp only [runSteps] at h
  split at h
  · next t ht => exact ⟨t, ht, h⟩
  · cases h
  · cases h

theorem operations_succ_of_next {c : Config} {s t : State} (h : stepUnder c s = .next t) (n : Nat) :
    operations c (n + 1) s = s.selected c :: operations c n t := by
  simp only [operations, h]

end Sys2Proof.Machine
end

