-- ==== Sys2Proof/Laws/PerInstr.lean ====
section
/-! SUPPORT. Statements about every operation as syntax, one lemma for each constructor. -/

namespace Sys2Proof.Laws

/-- The environment's operations, and no others, are encoded in the stimulus word; every other row of the opcode table
is a `SEL7` pattern (R47, R52, R54). -/
def StimFormat.Statement (i : Instr) : Prop :=
  i.agent = some .env ↔ ∃ w : Stim3, encode i = .stim w

theorem StimFormat.reset : StimFormat.Statement .reset := ⟨fun _ => ⟨_, rfl⟩, fun _ => rfl⟩

theorem StimFormat.edge0 : StimFormat.Statement .edge0 := ⟨fun _ => ⟨_, rfl⟩, fun _ => rfl⟩

theorem StimFormat.edge1 : StimFormat.Statement .edge1 := ⟨fun _ => ⟨_, rfl⟩, fun _ => rfl⟩

theorem StimFormat.stepDec : StimFormat.Statement .stepDec := ⟨nofun, nofun⟩

theorem StimFormat.stepInc : StimFormat.Statement .stepInc := ⟨nofun, nofun⟩

theorem StimFormat.pulseStart : StimFormat.Statement .pulseStart := ⟨nofun, nofun⟩

theorem StimFormat.timeIdle : StimFormat.Statement .timeIdle := ⟨nofun, nofun⟩

theorem StimFormat.timeWait : StimFormat.Statement .timeWait := ⟨nofun, nofun⟩

theorem StimFormat.holdChunk : StimFormat.Statement .holdChunk := ⟨nofun, nofun⟩

theorem StimFormat.holdUnit : StimFormat.Statement .holdUnit := ⟨nofun, nofun⟩

theorem StimFormat.pulseEnd : StimFormat.Statement .pulseEnd := ⟨nofun, nofun⟩

theorem StimFormat.reservedUnreachable : StimFormat.Statement .reservedUnreachable := ⟨nofun, nofun⟩

end Sys2Proof.Laws
end

