-- ==== Sys2Proof/Laws/Trace.lean ====
section
/-! SUPPORT. One lemma for each operation over traces that says what it can do: the `EXEC` operations due, what urgency
fills in, the composition of runs, the run of a trace in two parts, the expansions. -/

namespace Sys2Proof.Machine

@[simp] theorem ExecOp.mem_all (o : ExecOp) : o ∈ ExecOp.all := by cases o <;> decide

/-- The operations due are the enabled ones of `EXEC`. -/
@[simp] theorem mem_dueOps (c : Config) (b : Block) (o : ExecOp) : o ∈ dueOps c b ↔ enabled c b o.instr = true := by
  simp [dueOps]

/-- What urgency determines is enabled. -/
theorem enabled_of_forcedOp {c : Config} {b : Block} {o : ExecOp} (h : forcedOp c b = some o) :
    enabled c b o.instr = true := by
  unfold forcedOp at h
  split at h
  · next hp =>
    cases h
    exact (mem_dueOps c b o).1 (by rw [hp]; exact List.mem_singleton_self o)
  · cases h

theorem ExecOp.agent_instr (o : ExecOp) : o.instr.agent = some .exec := by cases o <;> rfl

@[simp] theorem ExecOp.isTime_instr (o : ExecOp) : o.instr.isTime = false := by cases o <;> rfl

@[simp] theorem listedInstr_instr (o : ExecOp) : listedInstr o.instr = [] := by cases o <;> rfl

@[simp] theorem edgeOp_agent (c : Config) (increment : Bool) : (edgeOp c increment).agent = some .env := by
  unfold edgeOp; split <;> rfl

theorem edgeOp_cases (c : Config) (increment : Bool) :
    (dirLevel c increment = true ∧ edgeOp c increment = .edge1) ∨
    (dirLevel c increment = false ∧ edgeOp c increment = .edge0) := by
  unfold edgeOp; cases dirLevel c increment <;> simp

@[simp] theorem enabled_edgeOp (c : Config) (b : Block) (increment : Bool) :
    enabled c b (edgeOp c increment) = true := by
  unfold edgeOp; split <;> rfl

/-- The effect of a raw edge of a direction. -/
theorem effectOf_edgeOp (c : Config) (b : Block) (increment : Bool) :
    effectOf (edgeOp c increment) c b = b.latchStep (dirLevel c increment) := by
  rcases edgeOp_cases c increment with ⟨h, e⟩ | ⟨h, e⟩ <;> rw [h, e] <;> rfl

/-- Everything a run followed by another can have taken when it answers a next state. -/
theorem Taken.andThen_eq_next_iff (r : Taken) (f : State → Taken) (os : List Instr) (u : State) :
    r.andThen f = ⟨os, .next u⟩ ↔
      ∃ t os', r.outcome = .next t ∧ f t = ⟨os', .next u⟩ ∧ os = r.ops ++ os' := by
  obtain ⟨rops, ro⟩ := r
  unfold Taken.andThen
  cases ro with
  | next t =>
    rcases hf : f t with ⟨os', o⟩
    constructor
    · intro h
      simp only [hf, Taken.mk.injEq] at h
      exact ⟨t, os', rfl, by rw [hf, h.2], h.1.symm⟩
    · rintro ⟨t', os'', ht, hq, rfl⟩
      cases ht
      rw [hf, Taken.mk.injEq] at hq
      simp only [hf, hq.1, hq.2]
  | fault r => simp
  | refused r => simp

/-- One operation taken: exactly where it answers a next state. -/
theorem takeOp_eq_next_iff (c : Config) (i : Instr) (s t : State) (os : List Instr) :
    takeOp c i s = ⟨os, .next t⟩ ↔ execUnder c i s = .next t ∧ os = [i] := by
  unfold takeOp
  cases execUnder c i s with
  | next u =>
    simp only [Taken.mk.injEq, Host.Outcome.next.injEq]
    exact ⟨fun h => ⟨h.2, h.1.symm⟩, fun h => ⟨h.2.symm, h.1⟩⟩
  | fault r => simp
  | refused r => simp

/-- A trace in two parts. -/
theorem runTrace_append (c : Config) (ls ms : List TraceLine) {s t : State} (h : runTrace c ls s = .next t) :
    runTrace c (ls ++ ms) s = runTrace c ms t := by
  induction ls generalizing s with
  | nil => cases h; rfl
  | cons l ls ih =>
    simp only [runTrace, List.cons_append] at h ⊢
    split at h
    · next u hu => simp only [ih h]
    · cases h
    · cases h

/-- The operations of a run in two parts. -/
theorem runOperations_append (c : Config) (is js : List Instr) {s t : State} (h : runOperations c is s = .next t) :
    runOperations c (is ++ js) s = runOperations c js t := by
  induction is generalizing s with
  | nil => cases h; rfl
  | cons i is ih =>
    simp only [runOperations, List.cons_append] at h ⊢
    split at h
    · next u hu => simp only [ih h]
    · cases h
    · cases h

/-- A pseudo-instruction with an expansion runs as it. -/
theorem Pseudo.run_of_expand {c : Config} {p : Pseudo} {s : State} {ls : List TraceLine}
    (h : p.expand c s.block = some ls) : p.run c s = runTrace c ls s := by
  simp only [Pseudo.run, h]

@[simp] theorem Pseudo.run_step (c : Config) (increment : Bool) (s : State) :
    (Pseudo.step increment).run c s = runTrace c (stepLines c s.block increment) s := rfl

@[simp] theorem Pseudo.run_steps (c : Config) (n : Nat) (increment : Bool) (s : State) :
    (Pseudo.steps n increment).run c s = runTrace c (stepsLines c s.block increment n) s := rfl

/-- In `IDLE` with no request pending a step is the adjacent pair (R60). -/
theorem stepLines_of_idle {c : Config} {b : Block} (hp : b.phase = .idle) (hs : b.stepPend = false)
    (increment : Bool) : stepLines c b increment = [.edge increment, .op (.step increment)] := by
  simp [stepLines, untilIdleLines, hp, hs]

end Sys2Proof.Machine
end

