-- ==== Sys2Proof/Tests/Slice0.lean ====
section
/-! SUPPORT. Tests: the well-formedness smoke, words written out from the encodings, one-step vectors of
95_test_vectors.md, and a state that meets the hypotheses of each statement. -/

namespace Sys2Proof.Tests

open Sys2Proof.Machine

/-- `CFG_EX` (R8 to R11) with levels chosen for the test where the spec leaves them symbolic. -/
def cfg : Config :=
  { Config.cfgEx with homeLevel := true, travelMode := .limitedRange }

/-- `CFG_EX` with `HOME_AT_MAX` (95_test_vectors.md). -/
def cfgMax : Config := { cfg with homePolarity := .homeAtMax }

/-- A state with the given block and no stimulus. -/
def stateOf (b : Block) : State := { block := b, inputs := [], tieBreak := .stepFirst, draws := 0 }

/-- An idle block with a pending step request and the given `PW`. -/
def stepDue (c : Config) (pw : Int) (d : Level) : State :=
  stateOf { Block.atReset c with pw := toWord pw, homeOut := homeFlag c pw, stepPend := true, dirLat := d }

/-- An idle block with a pending tick. -/
def tickDue : State := stateOf { Block.atReset cfg with tickPend := true }

/-- An idle block with both requests pending: `SEL7 = 0111000` of program P3. -/
def bothDue : State := stateOf { Block.atReset cfg with tickPend := true, stepPend := true, dirLat := true }

/-- A block in a hold. -/
def holding (r : Int) (w t : Nat) : State :=
  stateOf { Block.atReset cfg with servoOut := true, phase := .hold, rem := toWord r, wait := w, tcnt := t }

/-- The block after an operation, where it answers a next state. -/
def blockAfter (c : Config) (i : Instr) (s : State) : Option Block :=
  match execUnder c i s with
  | .next t => some t.block
  | .fault _ => none
  | .refused _ => none

/-- The block after a step, where it answers a next state. -/
def blockAfterStep (c : Config) (s : State) : Option Block :=
  match stepUnder c s with
  | .next t => some t.block
  | .fault _ => none
  | .refused _ => none

/-- `PW` and `home_out` after a step operation serves a request. -/
def served (c : Config) (i : Instr) (pw : Int) (d : Level) : Option (Int × Level) :=
  (blockAfter c i (stepDue c pw d)).map fun b => (b.pw.toInt, b.homeOut)

/-- The block after the run of a stimulus trace, where it ends in a state. -/
def blockAfterStimulus (c : Config) (ls : List TraceLine) (s : State) : Option Block :=
  match (runStimulus c ls s).outcome with
  | .next t => some t.block
  | .fault _ => none
  | .refused _ => none

/-- The block after the run of a pseudo-instruction, where it ends in a state. -/
def blockAfterPseudo (c : Config) (p : Pseudo) (s : State) : Option Block :=
  match p.run c s with
  | .next t => some t.block
  | .fault _ => none
  | .refused _ => none

/-! The configuration (R13) -/

theorem test_cfg_ex_is_well_formed : cfg.WellFormed ∧ cfgMax.WellFormed ∧ Config.cfgEx.WellFormed := by decide

theorem test_ill_formed_resolution : ¬ Config.ResolutionPositive { cfg with resolution := 0 } := by decide

/-- Part 4 of 95_test_vectors.md: `PWM_MIN = 900`, `PWM_MAX = 905`, `RES = 10` must be refused. -/
theorem test_ill_formed_range : ¬ Config.RangeHoldsAStep { cfg with pwmMax := 905 } := by decide

theorem test_ill_formed_negative_min : ¬ Config.MinNonnegative { cfg with pwmMin := -1 } := by decide

theorem test_ill_formed_step_width : ¬ Config.StepFitsWidth { cfg with pwmMax := 32758, period := 40000 } := by decide

theorem test_ill_formed_chunk : ¬ Config.ChunkPositive { cfg with chunk := 0 } := by decide

theorem test_ill_formed_hold_width :
    ¬ Config.HoldFitsWidth { cfg with pulseOffset := 31208, period := 40000 } := by decide

theorem test_ill_formed_period : ¬ Config.PeriodExceedsHold { cfg with period := 1560 } := by decide

theorem test_ill_formed_tolerance : ¬ Config.ToleranceNonnegative { cfg with pulseTol := -1 } := by decide

theorem test_ill_formed_configuration_is_refused :
    stepUnder { cfg with pwmMax := 905 } (stateOf (Block.atReset cfg)) = .refused .illFormedConfig ∧
    execUnder { cfg with chunk := 0 } .reset (stateOf (Block.atReset cfg)) = .refused .illFormedConfig :=
  ⟨rfl, rfl⟩

theorem test_reserved_pattern_is_not_well_formed : ¬ Instr.WellFormed .reservedUnreachable := by decide

/-! Decoding: words written out from R52 and R54 -/

theorem test_decode_stim :
    (List.range 8).map (fun w => decodeStim (BitVec.ofNat 3 w)) =
      [none, none, some .edge0, some .edge1, some .reset, some .reset, some .reset, some .reset] := by decide

/-- `SEL7` words of programs P1 to P5 and of table 2.6. -/
theorem test_decode_sel :
    [0b0011000#7, 0b0010000#7, 0b0101000#7, 0b1001011#7, 0b1011011#7, 0b1001001#7, 0b1010001#7, 0b1001000#7,
      0b1000100#7, 0b0000000#7, 0b0001000#7, 0b0111000#7, 0b0110000#7, 0b1000010#7].map decodeSel =
      [[.stepInc], [.stepDec], [.pulseStart], [.holdChunk], [.holdChunk], [.holdUnit], [.holdUnit], [.pulseEnd],
        [.timeWait], [.timeIdle], [.timeIdle], [.stepInc, .pulseStart], [.stepDec, .pulseStart],
        [.reservedUnreachable]] := by decide

/-- Each row of the opcode table, its match word in a whole byte. -/
theorem test_decode_table_words :
    [0b100, 0b010, 0b011, 0b0010000, 0b0011000, 0b0100000, 0b0000000, 0b1000100, 0b1000011, 0b1000001, 0b1000000,
      0b1000010].map (decodeTableWord 8) =
      [some .reset, some .edge0, some .edge1, some .stepDec, some .stepInc, some .pulseStart, some .timeIdle,
        some .timeWait, some .holdChunk, some .holdUnit, some .pulseEnd, some .reservedUnreachable] := by decide

theorem test_decode_refuses_other_words :
    decodeTableWord 3 0b001 = none ∧ decodeTableWord 3 8 = none ∧ decodeTableWord 8 128 = none := by decide

/-- The first step after reset runs the word placed. -/
theorem test_placed_words_are_selected :
    [0b100, 0b010, 0b011, 0b0010000, 0b0011000, 0b0100000, 0b0000000, 0b1000100, 0b1000011, 0b1000001,
      0b1000000].map (fun w => (State.reset.withFetchWord 8 w).selected Config.built) =
      [.reset, .edge0, .edge1, .stepDec, .stepInc, .pulseStart, .timeIdle, .timeWait, .holdChunk, .holdUnit,
        .pulseEnd] := by decide

/-! The lines (R48, R52) -/

theorem test_qualifying_edges :
    [(true, false), (false, true), (true, true), (false, false)].map
        (fun p => (qualifies cfg p.1 p.2, qualifies { cfg with stepEdge := .rising } p.1 p.2)) =
      [(true, false), (false, true), (false, false), (false, false)] := by decide

theorem test_stimulus_of_a_waveform :
    stimWords cfg true [⟨false, false, true⟩, ⟨false, true, true⟩, ⟨true, false, false⟩] =
      [0b011#3, 0b001#3, 0b110#3] := by decide

/-! `RESET`: vectors Z1 and Z2 -/

theorem test_reset_z1 :
    blockAfter cfg .reset (stateOf ⟨toWord 1550, false, true, true, false, false, .hold, 300, 40, 1210⟩) =
      some ⟨900, true, false, false, false, false, .idle, 0, 0, 0⟩ := by decide

theorem test_reset_z2 :
    blockAfter cfgMax .reset (stateOf ⟨900, false, false, false, true, true, .idle, 0, 0, 7⟩) =
      some ⟨1560, true, false, false, false, false, .idle, 0, 0, 0⟩ := by decide

/-! `EDGE`: vectors E1 to E5 -/

theorem test_edge_latches :
    (blockAfter cfg .edge1 (stateOf (Block.atReset cfg)) =
      some { Block.atReset cfg with stepPend := true, dirLat := true }) ∧
    (blockAfter cfg .edge0 (stateOf { Block.atReset cfg with dirLat := true }) =
      some { Block.atReset cfg with stepPend := true, dirLat := false }) := by decide

theorem test_edge_coalesces :
    [(Instr.edge0, true), (.edge0, false), (.edge1, false)].map
        (fun p => (blockAfter cfg p.1 (stepDue cfg 900 p.2)).map fun b => (b.stepPend, b.dirLat)) =
      [some (true, true), some (true, false), some (true, false)] := by decide

/-! `STEP_INC`: vectors I1 to I5, I6 to I9 -/

theorem test_step_inc :
    [900, 1200, 1540, 1550, 1560].map (fun v => served cfg .stepInc v true) =
      [some (910, false), some (1210, false), some (1550, false), some (1560, false), some (1560, false)] := by
  decide

theorem test_step_inc_corners :
    [served { cfg with pwmMax := 1565 } .stepInc 1560 true,
      served cfgMax .stepInc 1550 true, served cfgMax .stepInc 1560 true,
      served { cfg with pwmMin := 0, pwmMax := 32757, period := 40000 } .stepInc 32757 true] =
      [some (1565, false), some (1560, true), some (1560, true), some (32757, false)] := by decide

/-! `STEP_DEC`: vectors X1 to X4, X5 to X9 -/

theorem test_step_dec :
    [1560, 1200, 910, 900].map (fun v => served cfg .stepDec v false) =
      [some (1550, false), some (1190, false), some (900, true), some (900, true)] := by decide

theorem test_step_dec_corners :
    [served { cfg with pwmMax := 1565 } .stepDec 905 false,
      served cfgMax .stepDec 1560 false, served cfgMax .stepDec 900 false,
      served { cfg with pwmMin := 0, pwmMax := 100 } .stepDec 0 false,
      served { cfg with dirDecLevel := true } .stepDec 1200 true] =
      [some (900, true), some (1550, false), some (900, false), some (0, true), some (1190, false)] := by decide

theorem test_clamp :
    [890, 900, 901, 1559, 1560, 1570].map (clamp cfg) = [900, 900, 901, 1559, 1560, 1560] := by decide

/-! `TIME`: vectors T1, T2, T5 and T3, T4, T6, T7 -/

theorem test_time_idle :
    (blockAfter cfg .timeIdle (stateOf (Block.atReset cfg))).map (fun b => (b.tcnt, b.tickPend)) = some (1, false) ∧
    (blockAfter cfg .timeIdle (stateOf { Block.atReset cfg with tcnt := 19999 })).map
      (fun b => (b.tcnt, b.tickPend)) = some (0, true) ∧
    blockAfter cfg .timeIdle tickDue = none := by decide

theorem test_time_wait :
    [(100, 0), (1, 949), (0, 5)].map
        (fun p => (blockAfter cfg .timeWait (holding 850 p.1 p.2)).map fun b => (b.wait, b.tcnt, b.tickPend)) =
      [some (99, 1, false), some (0, 950, false), none] ∧
    (blockAfter cfg .timeWait (stateOf { (holding 850 3 19999).block with tickPend := true })).map
      (fun b => (b.wait, b.tcnt, b.tickPend)) = some (2, 0, true) := by decide

/-! The pulse: vectors G1 to G7 -/

theorem test_pulse_start :
    blockAfter cfg .pulseStart (stateOf ⟨950, false, false, false, false, true, .idle, 7, 3, 0⟩) =
      some ⟨950, false, true, false, false, false, .hold, 950, 0, 0⟩ := by decide

theorem test_hold_chunk :
    [950, 100, 99].map (fun r => (blockAfter cfg .holdChunk (holding r 0 0)).map fun b => (b.rem.toInt, b.wait)) =
      [some (850, 100), some (0, 100), none] := by decide

theorem test_hold_unit :
    [99, 1, 100, 0].map (fun r => (blockAfter cfg .holdUnit (holding r 0 0)).map fun b => (b.rem.toInt, b.wait)) =
      [some (98, 1), some (0, 1), none, none] := by decide

theorem test_pulse_end :
    (blockAfter cfg .pulseEnd (holding 0 0 900)).map (fun b => (b.servoOut, b.phase)) = some (false, .idle) ∧
    (sel7 cfg { (holding 0 0 900).block with stepPend := true, dirLat := true } = 0b1011000#7) ∧
    (blockAfter cfg .pulseEnd (stateOf { (holding 0 0 900).block with stepPend := true, dirLat := true })).map
      (sel7 cfg) = some 0b0011000#7 := by decide

theorem test_reserved_pattern : exec .reservedUnreachable tickDue = .fault .unreachableSelection := rfl

/-! Selection: table 2.7 and both orders of program P3 -/

theorem test_dispatch :
    [(false, false, false), (false, true, false), (false, true, true), (true, false, true), (true, true, false),
      (true, true, true)].map
        (fun p => (stateOf { Block.atReset cfg with
          tickPend := p.1, stepPend := p.2.1, dirLat := p.2.2 }).candidates cfg) =
      [[.timeIdle], [.stepDec], [.stepInc], [.pulseStart], [.stepDec, .pulseStart], [.stepInc, .pulseStart]] := by
  decide

theorem test_simultaneous_requests_in_both_orders :
    (blockAfterStep cfg bothDue).map (fun b => (b.pw.toInt, b.phase)) = some (910, .idle) ∧
    (blockAfterStep cfg { bothDue with tieBreak := .tickFirst }).map (fun b => (b.pw.toInt, b.phase)) =
      some (900, .hold) := by decide

/-- The first words of program P5's encoding, with `EDGE INC` served at once. -/
theorem test_selection_words :
    selectionWords cfg 3 { stateOf (Block.atReset cfg) with inputs := [0b100#3, 0b011#3] } =
      [.stim 0b100#3, .stim 0b011#3, .sel 0b0011000#7] := by decide

/-- The encoding of `RESET, EDGE INC, TIME 40, EDGE DEC` under the default and the inverted convention (R59, R61). -/
theorem test_encode_stimulus :
    encodeStimulus cfg [.reset, .edge true, .time 40 (by decide), .edge false] =
      [.word 0b100#3, .word 0b011#3, .units 40, .word 0b010#3] ∧
    encodeStimulus { cfg with dirDecLevel := true } [.edge true, .edge false] =
      [.word 0b010#3, .word 0b011#3] := by decide

/-! The machine as built: one operation and one step of it -/

theorem test_exec_and_step_as_built :
    (∃ t, exec .pulseStart tickDue = .next t ∧ t.block.rem = 900) ∧
    ∃ t, step tickDue = .next t ∧ t.block.phase = .hold :=
  ⟨⟨_, rfl, rfl⟩, ⟨_, rfl, rfl⟩⟩

/-! Stimulus traces (R59): the first lines of program P1, and an edge at the instant of a tick as in program P3 -/

/-- Five edges, each served at once: `PW` = 950. -/
theorem test_stimulus_serves_edges_at_once :
    (blockAfterStimulus cfg (.reset :: List.replicate 5 (.edge true)) (holding 1 2 897)).map
      (fun b => (b.pw.toInt, b.homeOut, b.stepPend, b.dirLat)) = some (950, false, false, true) := by decide

/-- Order A, order B, and the trace that leaves the choice open. -/
theorem test_stimulus_writes_the_choice :
    [[TraceLine.edge true, .op .stepInc, .time 1 (by decide)], [.edge true, .op .pulseStart, .time 1 (by decide)],
      [.edge true, .time 1 (by decide)]].map
        (fun ls => (blockAfterStimulus cfg ls tickDue).map fun b => (b.pw.toInt, b.rem.toInt, b.wait, b.stepPend)) =
      [some (910, 810, 99, false), some (900, 800, 99, true), none] := by decide

/-! Pseudo-instructions (R60): `STEP` in `IDLE`, at the end of a hold and with a request pending; `TICK` and `IDLE` where
they have no expansion -/

theorem test_step_expansion :
    (Pseudo.step true).expand cfg (Block.atReset cfg) = some [.edge true, .op .stepInc] ∧
    (Pseudo.step true).expand cfg (holding 1 2 897).block =
      some [.edge true, .time 2 (by decide), .op .holdUnit, .time 1 (by decide), .op .pulseEnd, .op .stepInc] ∧
    (blockAfterPseudo cfg (.step true) (holding 1 2 897)).map (fun b => (b.pw.toInt, b.servoOut, b.tcnt)) =
      some (910, false, 900) ∧
    (Pseudo.step true).expand cfg bothDue.block = some [.edge true] := by decide

theorem test_pseudo_without_expansion :
    Pseudo.tick.expand cfg tickDue.block = none ∧ (Pseudo.idle 1 (by decide)).expand cfg (holding 1 2 897).block = none ∧
    (Pseudo.idle 5 (by decide)).expand cfg (Block.atReset cfg) = some [.time 5 (by decide)] := by decide

/-! States that meet the hypotheses of the statements, clause by clause. `Config.built` is the configuration where a
clause is about `exec` too. -/

/-- An idle block one unit before a tick. -/
def tickNext : State := stateOf { Block.atReset cfg with tcnt := 19999 }

/-- A block in the hold of a 900-unit pulse with a step request pending. -/
def holdPending : State := stateOf { (holding 800 100 0).block with stepPend := true, dirLat := true }

/-- An idle block at the upper bound. -/
def atMax : State := stateOf { Block.atReset cfg with pw := 1560, homeOut := false }

/-- Both requests pending, the tick winning, and an edge to come in the hold. -/
def tickFirstDue : State := { bothDue with tieBreak := .tickFirst, inputs := [0b001#3, 0b010#3] }

/-- A configuration with a period of four units and pulses of one or two. -/
def cfgShort : Config := { cfg with pwmMin := 1, pwmMax := 2, resolution := 1, period := 4 }

/-- A tick pending under `cfgShort`, and an edge to come in the hold. -/
def pulseNow : State :=
  { stateOf { Block.atReset cfgShort with tickPend := true } with inputs := [0b001#3, 0b011#3] }

/-- The same block, about to be reset. -/
def resetNow : State := { pulseNow with inputs := [0b100#3] }

/-- The machine as built, one unit before a tick. -/
def builtNext : State := stateOf { Block.atReset Config.built with tcnt := 19999 }

theorem witness_reset_inv : (State.powerOn cfg).Inv cfg := by
  refine ⟨by decide, ?_⟩; constructor <;> decide

theorem witness_tickDue_inv : tickDue.Inv cfg := by
  refine ⟨by decide, ?_⟩; constructor <;> decide

theorem witness_tickNext_inv : tickNext.Inv cfg := by
  refine ⟨by decide, ?_⟩; constructor <;> decide

theorem witness_holdPending_inv : holdPending.Inv cfg := by
  refine ⟨by decide, ?_⟩; constructor <;> decide

theorem witness_holding_inv : (holding 1 2 897).Inv cfg := by
  refine ⟨by decide, ?_⟩; constructor <;> decide

theorem witness_tickFirstDue_inv : tickFirstDue.Inv cfg := by
  refine ⟨by decide, ?_⟩; constructor <;> decide

theorem witness_atMax_inv : atMax.Inv cfg := by
  refine ⟨by decide, ?_⟩; constructor <;> decide

theorem witness_EncodedOperationDecodesToItself : Instr.WellFormed .reset ∧ Instr.WellFormed .pulseEnd := by decide

theorem witness_PlacedSelectionWordIsFormedAgain :
    (2 ≤ ({ cfg with chunk := 2 } : Config).chunk ∧ (({ cfg with chunk := 32767 } : Config).chunk : Int) ≤ maxSigned) ∧
    ((0b1000011#7).getLsbD 1 = true → (0b1000011#7).getLsbD 0 = true) ∧
    ((0b1000000#7).getLsbD 1 = true → (0b1000000#7).getLsbD 0 = true) := by decide

theorem witness_QualifyingEdgeIsTheConfiguredTransition :
    qualifies cfg true false = true ∧ (InputLines.mk false false true).rst = false := by decide

theorem witness_WellFormedConfigurationConditions :
    ¬ ({ cfg with pwmMax := 905 } : Config).WellFormed ∧ Instr.WellFormed .stepInc := by decide

theorem witness_StepEdgeAndToleranceAreReadByNoOperation :
    cfg.WellFormed ∧ (0 : Int) ≤ 5 ∧ ({ cfg with stepEdge := .rising, pulseTol := 5 } : Config) ≠ cfg := by decide

theorem witness_StepRunsSelectedOperation :
    cfg.WellFormed ∧ decodeStim (({ tickDue with inputs := [0b011#3] } : State).inputs.headD 0) = some .edge1 ∧
    decodeStim (tickDue.inputs.headD 0) = none := by decide

theorem witness_SelectionWordEnablesByState :
    cfg.WellFormed ∧ (holding 800 1 0).block.phase = .hold ∧ (holding 100 0 0).block.wait = 0 ∧
    (cfg.chunk : Int) ≤ (holding 100 0 0).block.rem.toInt ∧
    (0 < (holding 99 0 0).block.rem.toInt ∧ (holding 99 0 0).block.rem.toInt < (cfg.chunk : Int)) ∧
    (holding 0 0 0).block.rem.toInt ≤ 0 := by decide

theorem witness_TimePassesOnlyWhenNoExecOperationIsEnabled :
    cfg.WellFormed ∧ Instr.timeIdle ∈ decodeSel (sel7 cfg tickNext.block) ∧
    Instr.pulseStart ∈ decodeSel (sel7 cfg tickDue.block) := by decide

theorem witness_HoldEnablesExactlyOneOperation :
    (cfg.WellFormed ∧ holdPending.block.phase = .hold) ∧ tickDue.Inv cfg ∧ tickDue.block.phase = .idle :=
  ⟨by decide, witness_tickDue_inv, rfl⟩

theorem witness_SimultaneousRequestsAdmitBothOrders :
    cfg.WellFormed ∧ bothDue.block.phase = .idle ∧ bothDue.block.stepPend = true ∧ bothDue.block.tickPend = true ∧
    decodeStim (bothDue.inputs.headD 0) = none ∧
    cfg.pwmMin ≤ bothDue.block.pw.toInt ∧ bothDue.block.pw.toInt ≤ cfg.pwmMax := by decide

/-- For each operation a state in which one part of its condition alone fails. -/
theorem witness_DisabledOperationsDoNotRun :
    cfg.WellFormed ∧
    ¬ (tickDue.block.phase = .idle ∧ tickDue.block.stepPend = true ∧ tickDue.block.dirLat = cfg.dirDecLevel) ∧
    ¬ ((stepDue cfg 900 false).block.phase = .idle ∧ (stepDue cfg 900 false).block.stepPend = true ∧
      (stepDue cfg 900 false).block.dirLat ≠ cfg.dirDecLevel) ∧
    ¬ (tickNext.block.phase = .idle ∧ tickNext.block.tickPend = true) ∧
    ¬ (tickDue.block.phase = .idle ∧ tickDue.block.tickPend = false ∧ tickDue.block.stepPend = false) ∧
    ¬ ((holding 800 0 0).block.phase = .hold ∧ 0 < (holding 800 0 0).block.wait) ∧
    ¬ ((holding 100 1 0).block.phase = .hold ∧ (holding 100 1 0).block.wait = 0 ∧
      (cfg.chunk : Int) ≤ (holding 100 1 0).block.rem.toInt) ∧
    ¬ ((holding 100 0 0).block.phase = .hold ∧ (holding 100 0 0).block.wait = 0 ∧
      0 < (holding 100 0 0).block.rem.toInt ∧ (holding 100 0 0).block.rem.toInt < cfg.chunk) ∧
    ¬ ((holding 1 0 0).block.phase = .hold ∧ (holding 1 0 0).block.wait = 0 ∧
      (holding 1 0 0).block.rem.toInt ≤ 0) := by decide

theorem witness_UnreachableSelectionsAreNeverFormed :
    cfg.WellFormed ∧ tickDue.Inv cfg ∧ tickDue.block.phase = .idle :=
  ⟨by decide, witness_tickDue_inv, rfl⟩

/-- For every statement whose only hypothesis is a well-formed configuration; `exec` runs under the first. -/
theorem witness_configuration : Config.built.WellFormed ∧ cfg.WellFormed ∧ cfgMax.WellFormed ∧ 19999 < cfg.period := by
  decide

theorem witness_ResetOverridesEverything :
    cfg.WellFormed ∧ ({ holdPending with inputs := [0b111#3, 0b010#3] } : State).inputs = 0b111#3 :: [0b010#3] ∧
    (0b111#3).getLsbD 2 = true := by decide

theorem witness_EdgeLatchesRequestAndDirection :
    Config.built.WellFormed ∧ tickDue.block.stepPend = false ∧ holdPending.block.stepPend = true := by decide

theorem witness_StepDecSubtractsAndClamps :
    Config.built.WellFormed ∧ (stepDue cfg 900 false).block.phase = .idle ∧
    (stepDue cfg 900 false).block.stepPend = true ∧
    (stepDue cfg 900 false).block.dirLat = Config.built.dirDecLevel := by decide

theorem witness_StepIncAddsAndClamps :
    Config.built.WellFormed ∧ (stepDue cfg 1560 true).block.phase = .idle ∧
    (stepDue cfg 1560 true).block.stepPend = true ∧
    (stepDue cfg 1560 true).block.dirLat ≠ Config.built.dirDecLevel := by decide

theorem witness_TimeAdvancesTimerAndWait :
    Config.built.WellFormed ∧
    (tickNext.block.phase = .idle ∧ tickNext.block.tickPend = false ∧ tickNext.block.stepPend = false ∧
      tickNext.block.tcnt + 1 = Config.built.period) ∧
    (holding 0 1 899).block.phase = .hold ∧ 0 < (holding 0 1 899).block.wait := by decide

theorem witness_PulseStartRaisesServoAndSamples :
    Config.built.WellFormed ∧ tickDue.block.phase = .idle ∧ tickDue.block.tickPend = true ∧
    Config.built.pwmMin ≤ tickDue.block.pw.toInt ∧ tickDue.block.pw.toInt ≤ Config.built.pwmMax := by decide

theorem witness_HoldChunkStartsAChunkWait :
    Config.built.WellFormed ∧ (holding 100 0 0).block.phase = .hold ∧ (holding 100 0 0).block.wait = 0 ∧
    (Config.built.chunk : Int) ≤ (holding 100 0 0).block.rem.toInt := by decide

theorem witness_HoldUnitStartsAUnitWait :
    Config.built.WellFormed ∧
    ((holding 1 0 0).block.phase = .hold ∧ (holding 1 0 0).block.wait = 0 ∧ 0 < (holding 1 0 0).block.rem.toInt ∧
      (holding 1 0 0).block.rem.toInt < Config.built.chunk) ∧
    0 < (holding 99 0 0).block.rem.toInt ∧ (holding 99 0 0).block.rem.toInt < Config.built.chunk := by decide

theorem witness_PulseEndLowersServoAndReturns :
    Config.built.WellFormed ∧ (holding 0 0 900).block.phase = .hold ∧ (holding 0 0 900).block.wait = 0 ∧
    (holding 0 0 900).block.rem.toInt ≤ 0 ∧ (holding (-1) 0 900).block.rem.toInt ≤ 0 ∧ (holding 0 0 900).Inv cfg :=
  ⟨by decide, by decide, by decide, by decide, by decide, ⟨by decide, by constructor <;> decide⟩⟩

/-- Each element has an operation that changes it. -/
theorem witness_EachElementHasOnlyItsWriters :
    (∃ t, execUnder cfg .stepInc (stepDue cfg 900 true) = .next t ∧ t.block.pw ≠ (stepDue cfg 900 true).block.pw ∧
      t.block.homeOut ≠ (stepDue cfg 900 true).block.homeOut ∧ t.block.stepPend = false) ∧
    (∃ t, execUnder cfg .pulseStart tickDue = .next t ∧ t.block.servoOut ≠ tickDue.block.servoOut ∧
      t.block.tickPend ≠ tickDue.block.tickPend ∧ t.block.phase ≠ tickDue.block.phase ∧
      t.block.rem ≠ tickDue.block.rem) ∧
    (∃ t, execUnder cfg .edge1 tickDue = .next t ∧ t.block.dirLat ≠ tickDue.block.dirLat) ∧
    (∃ t, execUnder cfg .timeWait (holding 0 1 899) = .next t ∧ t.block.wait ≠ 1 ∧ t.block.tcnt ≠ 899) :=
  ⟨⟨_, rfl, by decide⟩, ⟨_, rfl, by decide⟩, ⟨_, rfl, by decide⟩, ⟨_, rfl, by decide⟩⟩

theorem witness_ClampIsMaxOfMin : cfg.pwmMin < cfg.pwmMax := by decide

theorem witness_StepIntermediateNeverWraps :
    cfg.WellFormed ∧ cfg.pwmMin ≤ (stepDue cfg 900 false).block.pw.toInt ∧
    (stepDue cfg 900 false).block.pw.toInt ≤ cfg.pwmMax ∧ (stepDue cfg 1560 true).block.pw.toInt ≤ cfg.pwmMax := by
  decide

theorem witness_StepStaysInRangeAndMovesByResolution :
    (∃ t, execUnder cfg .stepDec (stepDue cfg 910 false) = .next t) ∧
    (∃ t, execUnder cfg .stepInc (stepDue cfg 1550 true) = .next t) ∧
    cfg.pwmMin ≤ (stepDue cfg 910 false).block.pw.toInt ∧ (stepDue cfg 910 false).block.pw.toInt ≤ cfg.pwmMax ∧
    cfg.pwmMin + cfg.resolution ≤ (stepDue cfg 910 false).block.pw.toInt ∧
    cfg.pwmMin ≤ (stepDue cfg 1550 true).block.pw.toInt ∧
    (stepDue cfg 1550 true).block.pw.toInt ≤ cfg.pwmMax - cfg.resolution :=
  ⟨⟨_, rfl⟩, ⟨_, rfl⟩, by decide⟩

theorem witness_StepsAtABoundAreAbsorbed :
    (atMax.Inv cfg ∧ atMax.block.phase = .idle ∧ atMax.block.stepPend = false ∧ atMax.block.pw.toInt = cfg.pwmMax) ∧
    tickDue.Inv cfg ∧ tickDue.block.phase = .idle ∧ tickDue.block.stepPend = false ∧
    tickDue.block.pw.toInt = cfg.pwmMin :=
  ⟨⟨witness_atMax_inv, rfl, rfl, by decide⟩, witness_tickDue_inv, rfl, rfl, by decide⟩

/-- For `TravelTakesTheCeilingOfRangeOverResolution` too. -/
theorem witness_ReversalMovesExactlyOneStepFromTheBound :
    cfg.WellFormed ∧ atMax.block.phase = .idle ∧ atMax.block.stepPend = false ∧ atMax.block.pw.toInt = cfg.pwmMax ∧
    tickDue.block.phase = .idle ∧ tickDue.block.stepPend = false ∧ tickDue.block.pw.toInt = cfg.pwmMin := by decide

theorem witness_HomingLineFollowsTheHomeExtreme :
    cfg.WellFormed ∧ (State.powerOn cfg).block = Block.atReset cfg ∧
    (∃ t, execUnder cfg .stepDec (stepDue cfg 910 false) = .next t) ∧
    ∃ t, execUnder cfg .stepInc (stepDue cfg 900 true) = .next t :=
  ⟨by decide, rfl, ⟨_, rfl⟩, ⟨_, rfl⟩⟩

theorem witness_EdgesBeforeServiceCoalesceToTheFirst :
    cfg.WellFormed ∧ ({ tickDue with inputs := [0b011#3, 0b010#3, 0b000#3] } : State).block.stepPend = false ∧
    ({ tickDue with inputs := [0b011#3, 0b010#3, 0b000#3] } : State).inputs =
      (true :: [false]).map (fun e => 0b01#2 ++ BitVec.ofBool e) ++ [0b000#3] := by decide

theorem witness_IdleEdgeIsServedBeforeTimePasses :
    cfg.WellFormed ∧ tickNext.block.phase = .idle ∧ tickNext.block.stepPend = false ∧
    tickNext.block.tickPend = false ∧
    ({ tickNext with inputs := [0b011#3] } : State).inputs = [0b01#2 ++ BitVec.ofBool true] := by decide

/-- For `PulseDecomposesIntoChunksAndUnits` and `ObservedPulseLengthIsTheSampledWidth`: a pulse with a step request
pending at its start and an edge in its hold. -/
theorem witness_pulse_with_requests :
    tickFirstDue.Inv cfg ∧ tickFirstDue.block.phase = .idle ∧ tickFirstDue.block.tickPend = true ∧
    (tickFirstDue.block.stepPend = true ∧ tickFirstDue.tieBreak = .tickFirst) ∧
    decodeStim (tickFirstDue.inputs.headD 0) = none ∧ (∀ w ∈ tickFirstDue.inputs, w.getLsbD 2 = false) :=
  ⟨witness_tickFirstDue_inv, rfl, rfl, by decide, by decide, by decide⟩

/-- For the two statements before with no request pending and no stimulus, and for the last clause of
`PulsesRepeatEveryPeriod`. -/
theorem witness_pulse :
    tickDue.Inv cfg ∧ tickDue.block.phase = .idle ∧ tickDue.block.tickPend = true ∧ tickDue.block.stepPend = false ∧
    tickDue.inputs = [] := ⟨witness_tickDue_inv, rfl, rfl, rfl, rfl⟩

/-- From a `PULSE_START` and from a `RESET`, with an edge to come, to the next `PULSE_START`, under a period of four
units. -/
theorem witness_PulsesRepeatEveryPeriod :
    (pulseNow.Inv cfgShort ∧ pulseNow.selected cfgShort = .pulseStart ∧
      (∀ w ∈ pulseNow.inputs.tail, w.getLsbD 2 = false) ∧
      operations cfgShort 10 pulseNow = .pulseStart ::
        [.edge1, .holdUnit, .timeWait, .pulseEnd, .stepInc, .timeIdle, .timeIdle, .timeIdle] ++ [.pulseStart]) ∧
    resetNow.Inv cfgShort ∧ resetNow.selected cfgShort = .reset ∧ (∀ w ∈ resetNow.inputs.tail, w.getLsbD 2 = false) ∧
    operations cfgShort 6 resetNow = .reset :: List.replicate 4 .timeIdle ++ [.pulseStart] :=
  ⟨⟨⟨by decide, by constructor <;> decide⟩, by decide⟩, ⟨by decide, by constructor <;> decide⟩, by decide⟩

theorem witness_TickExpansionRunsToTheEndOfThePulse :
    tickNext.Inv cfg ∧ tickNext.block.phase = .idle ∧ tickNext.block.tickPend = false ∧
    tickNext.block.stepPend = false :=
  ⟨witness_tickNext_inv, rfl, rfl, rfl⟩

theorem witness_NoTickIsEverMissed :
    (tickNext.Inv cfg ∧ (∃ t, stepUnder cfg tickNext = .next t) ∧ (tickNext.selected cfg).isTime = true ∧
      tickNext.block.tcnt + 1 = cfg.period) ∧
    tickDue.Inv cfg ∧ (∃ t, stepUnder cfg tickDue = .next t) ∧ tickDue.selected cfg = .pulseStart :=
  ⟨⟨witness_tickNext_inv, ⟨_, rfl⟩, by decide, by decide⟩, witness_tickDue_inv, ⟨_, rfl⟩, by decide⟩

theorem witness_TimePassesWithinFourOperations : tickDue.Inv cfg ∧ tickDue.inputs = [] := ⟨witness_tickDue_inv, rfl⟩

/-- A request still pending after the hold's first unit. -/
theorem witness_StepLatencyIsAtMostTheLongestHold :
    holdPending.Inv cfg ∧ holdPending.block.stepPend = true ∧ (∃ t, runSteps cfg 1 holdPending = .next t) ∧
    (∀ i ∈ operations cfg 1 holdPending, i ∉ [Instr.reset, .stepDec, .stepInc]) ∧
    unitsElapsed cfg 1 holdPending = 1 :=
  ⟨witness_holdPending_inv, rfl, ⟨_, rfl⟩, by decide, by decide⟩

theorem witness_PulseKeepsTheSampledWidth :
    Instr.timeWait ∉ [Instr.reset, .stepDec, .stepInc, .pulseStart] ∧
    ∃ t, execUnder cfg .timeWait holdPending = .next t :=
  ⟨by decide, ⟨_, rfl⟩⟩

/-- A writer of each line, and an operation that writes neither. -/
theorem witness_OutputLinesAreNeverRead :
    (∃ t, execUnder cfg .pulseEnd (holding 0 0 900) = .next t) ∧
    (∃ t, execUnder cfg .stepInc (stepDue cfg 900 true) = .next t) ∧
    ∃ t, execUnder cfg .timeWait holdPending = .next t := ⟨⟨_, rfl⟩, ⟨_, rfl⟩, ⟨_, rfl⟩⟩

theorem witness_SingleHoldCounterSimulatesTheBlock :
    holdPending.Inv cfg ∧ (∃ t, execUnder cfg .timeWait holdPending = .next t) ∧
    holdPending.block.toCounter.enabled cfg .timeWait = true :=
  ⟨witness_holdPending_inv, ⟨_, rfl⟩, by decide⟩

theorem witness_TimeLineIsLegalExactlyWhileTimeIsEnabled :
    (tickNext.Inv cfg ∧ tickNext.block.phase = .idle ∧ tickNext.block.tickPend = false ∧
      tickNext.block.stepPend = false ∧ tickNext.block.tcnt + 1 ≤ cfg.period ∧ ¬ tickNext.block.tcnt + 2 ≤ cfg.period) ∧
    ((holding 1 2 897).Inv cfg ∧ (holding 1 2 897).block.phase = .hold ∧ 2 ≤ (holding 1 2 897).block.wait ∧
      ¬ 3 ≤ (holding 1 2 897).block.wait) ∧
    tickDue.Inv cfg ∧ tickDue.block.phase = .idle ∧ (tickDue.block.tickPend = true ∨ tickDue.block.stepPend = true) :=
  ⟨⟨witness_tickNext_inv, by decide⟩, ⟨witness_holding_inv, by decide⟩, witness_tickDue_inv, by decide⟩

theorem witness_FilledStimulusTraceIsAFullTrace :
    ∃ t, runStimulus cfg [.edge true] (State.powerOn cfg) = ⟨[.edge1, .stepInc], .next t⟩ := ⟨_, rfl⟩

/-- A full trace with no `RESET`, and one whose `RESET` stands directly after an edge. -/
theorem witness_FullTraceEndsInTheSameState :
    (∃ t, runTrace cfg [.edge true, .op .stepInc] (State.powerOn cfg) = .next t ∧ dueOps cfg t.block = []) ∧
    (∀ (before after : List TraceLine) (increment : Bool),
      [.edge true, .op .stepInc] ≠ before ++ .edge increment :: .reset :: after) ∧
    ∃ t, runTrace cfg [.edge true, .reset] (holding 0 0 900) = .next t ∧ dueOps cfg t.block = [] := by
  refine ⟨⟨_, rfl, by decide⟩, ?_, ⟨_, rfl, by decide⟩⟩
  rintro (_ | ⟨_, _ | ⟨_, _ | ⟨_, _⟩⟩⟩) after increment <;> simp

theorem witness_UrgencyFillsInTheExecOperations :
    (cfg.WellFormed ∧ tickNext.block.phase = .idle ∧ tickNext.block.stepPend = false ∧
      tickNext.block.tickPend = false ∧ cfg.pwmMin ≤ tickNext.block.pw.toInt ∧ tickNext.block.pw.toInt ≤ cfg.pwmMax) ∧
    (tickDue.Inv cfg ∧ tickDue.block.phase = .idle ∧ tickDue.block.tickPend = true ∧
      tickDue.block.stepPend = false ∧ 1 ≤ 900 ∧ ((900 : Nat) : Int) = tickDue.block.pw.toInt + cfg.pulseOffset) ∧
    bothDue.block.phase = .idle ∧ bothDue.block.tickPend = true ∧ bothDue.block.stepPend = true :=
  ⟨by decide, ⟨witness_tickDue_inv, by decide⟩, by decide⟩

theorem witness_StepInAHoldIsServedWhenTheHoldEnds :
    (holding 1 2 897).Inv cfg ∧ (holding 1 2 897).block.phase = .hold ∧ (holding 1 2 897).block.stepPend = false :=
  ⟨witness_holding_inv, rfl, rfl⟩

theorem witness_EveryStepKeepsTheInvariant :
    (tickNext.Inv cfg ∧ ∃ t, stepUnder cfg tickNext = .next t) ∧
    (holdPending.Inv cfg ∧ ∃ t, stepUnder cfg holdPending = .next t) ∧
    builtNext.Inv Config.built ∧ ∃ t, step builtNext = .next t := by
  refine ⟨⟨witness_tickNext_inv, ⟨_, rfl⟩⟩, ⟨witness_holdPending_inv, ⟨_, rfl⟩⟩, ⟨by decide, ?_⟩, ⟨_, rfl⟩⟩
  constructor <;> first | decide | rfl

theorem witness_ReachableStatesKeepPulseWidthInRange :
    cfg.WellFormed ∧ ∃ t, runSteps cfg 2 { State.powerOn cfg with inputs := [0b011#3] } = .next t :=
  ⟨by decide, ⟨_, rfl⟩⟩

end Sys2Proof.Tests
end

section
/-! The configuration (00_scope.md): what well-formedness is and that nothing runs without it (R13),
the parameters that no operation reads (R6, R10, R28, R48), the configuration built in (R12). -/

namespace Sys2Proof.Machine

/-! Well-formedness: the range at `W = 16`, and the refusal of every other configuration -/

theorem minSigned_eq : minSigned = -32768 := by decide

theorem maxSigned_eq : maxSigned = 32767 := by decide

theorem execUnder_of_illFormed {c : Config} (hc : ¬ c.WellFormed) {i : Instr} (hi : i.WellFormed) (s : State) :
    execUnder c i s = .refused .illFormedConfig := by
  rw [execUnder_eq_perform hi]
  exact if_neg hc

theorem stepUnder_of_illFormed {c : Config} (hc : ¬ c.WellFormed) (s : State) :
    stepUnder c s = .refused .illFormedConfig := if_neg hc

theorem stepUnder_of_wellFormed {c : Config} (hc : c.WellFormed) (s : State) :
    stepUnder c s = execUnder c (s.selected c) (s.consume c) := if_pos hc

/-- Settles O7: the conditions of R13 are the definition's own once the bounds of the signed range are read at `W = 16`;
every operation answers by `State.perform`, which asks for them first. -/
theorem wellFormedConfigurationConditions : Obligations.WellFormedConfigurationConditions := by
  refine ⟨fun c => ?_, fun c s hc => ⟨stepUnder_of_illFormed hc s, fun i hi => execUnder_of_illFormed hc hi s⟩⟩
  rw [← minSigned_eq, ← maxSigned_eq]

/-! The machine handed to the host -/

theorem exec_eq_execUnder_built (i : Instr) (s : State) : exec i s = execUnder Config.built i s := by
  cases i <;> rfl

theorem built_wellFormed : Config.built.WellFormed := by decide

/-- Settles O55: arm by arm `exec` is the operation at `Config.built`, and a step at a well-formed configuration is the
selected operation. -/
theorem execAndStepRunTheBuiltConfiguration : Obligations.ExecAndStepRunTheBuiltConfiguration := by
  refine ⟨exec_eq_execUnder_built, fun s => ?_, built_wellFormed⟩
  calc step s
      = exec (s.selected Config.built) (s.consume Config.built) := rfl
    _ = execUnder Config.built (s.selected Config.built) (s.consume Config.built) := exec_eq_execUnder_built _ _
    _ = stepUnder Config.built s := (stepUnder_of_wellFormed built_wellFormed s).symm

/-! Configurations under which the block behaves alike -/

/-- Two configurations that agree in everything through which a run reads its configuration: whether it is well-formed,
the selection word, when each operation is enabled, and its effect. -/
structure ActAlike (c c' : Config) : Prop where
  wellFormed_iff : c'.WellFormed ↔ c.WellFormed
  sel7_eq : ∀ b : Block, sel7 c' b = sel7 c b
  enabled_eq : ∀ (b : Block) (i : Instr), enabled c' b i = enabled c b i
  effectOf_eq : ∀ i : Instr, effectOf i c' = effectOf i c

namespace ActAlike

variable {c c' : Config} (h : ActAlike c c')
include h

theorem candidates_eq (s : State) : s.candidates c' = s.candidates c := by
  simp only [State.candidates, h.sel7_eq]

theorem selected_eq (s : State) : s.selected c' = s.selected c := by
  simp only [State.selected, h.candidates_eq]

theorem arbitrates_eq (s : State) : s.arbitrates c' = s.arbitrates c := by
  rw [State.arbitrates, State.arbitrates, h.candidates_eq]

theorem consume_eq (s : State) : s.consume c' = s.consume c := by
  rw [State.consume, State.consume, h.arbitrates_eq]

theorem execUnder_eq (i : Instr) (s : State) : execUnder c' i s = execUnder c i s := by
  by_cases hi : i = .reservedUnreachable
  · subst hi; rfl
  · simp only [execUnder_eq_perform hi, State.perform, h.wellFormed_iff, h.enabled_eq, h.effectOf_eq]

theorem stepUnder_eq (s : State) : stepUnder c' s = stepUnder c s := by
  simp only [stepUnder, h.wellFormed_iff, h.selected_eq, h.consume_eq, h.execUnder_eq]

theorem runSteps_eq (n : Nat) (s : State) : runSteps c' n s = runSteps c n s := by
  induction n generalizing s with
  | zero => rfl
  | succ n ih => simp only [runSteps, h.stepUnder_eq, ih]

theorem operations_eq (n : Nat) (s : State) : operations c' n s = operations c n s := by
  induction n generalizing s with
  | zero => rfl
  | succ n ih => simp only [operations, h.stepUnder_eq, h.selected_eq, ih]

theorem observe_eq (n u : Nat) (s : State) : observe c' n u s = observe c n u s := by
  induction n generalizing u s with
  | zero => rfl
  | succ n ih => simp only [observe, h.stepUnder_eq, h.selected_eq, ih]

end ActAlike

/-- R6, R28, R48: of `STEP_EDGE` and `PULSE_TOL` only R13 (h) asks anything, that the tolerance is not negative. -/
theorem actAlike_stepEdge_pulseTol {c : Config} (hc : c.WellFormed) (edge : StepEdge) {tol : Int} (htol : 0 ≤ tol) :
    ActAlike c { c with stepEdge := edge, pulseTol := tol } where
  wellFormed_iff := by
    refine iff_of_true ?_ hc
    obtain ⟨hres, hrange, hmin, hstep, hchunk, hhold, hperiod, -⟩ := hc
    exact ⟨hres, hrange, hmin, hstep, hchunk, hhold, hperiod, htol⟩
  sel7_eq _ := rfl
  enabled_eq _ i := by cases i <;> rfl
  effectOf_eq i := by cases i <;> rfl

/-- R10: `TRAVEL_MODE` stands in no condition and in no effect. -/
theorem actAlike_travelMode (c : Config) (m : TravelMode) : ActAlike c { c with travelMode := m } where
  wellFormed_iff := Iff.rfl
  sel7_eq _ := rfl
  enabled_eq _ i := by cases i <;> rfl
  effectOf_eq i := by cases i <;> rfl

/-- Settles O8: the two configurations act alike, and so do their runs, by induction on the number of steps. -/
theorem stepEdgeAndToleranceAreReadByNoOperation : Obligations.StepEdgeAndToleranceAreReadByNoOperation := by
  intro c edge tol s hc htol
  have alike := actAlike_stepEdge_pulseTol hc edge htol
  exact ⟨alike.selected_eq s, fun i => alike.execUnder_eq i s, alike.stepUnder_eq s,
    fun n u => ⟨alike.runSteps_eq n s, alike.operations_eq n s, alike.observe_eq n u s⟩⟩

/-- Settles O9: configurations that differ in `TRAVEL_MODE` alone act alike. -/
theorem travelModeHasNoEffect : Obligations.TravelModeHasNoEffect := by
  intro c m s
  have alike := actAlike_travelMode c m
  exact ⟨alike.selected_eq s, fun i => alike.execUnder_eq i s, alike.stepUnder_eq s⟩

end Sys2Proof.Machine
end

section
/-! The state (10_state.md): the invariant at reset and after every operation and step (R17, R20, R25 to R27, R82, R83,
R88), the writers of each element (R18 to R27), the two output lines (R29), the first period after reset (R78, R114). -/

namespace Sys2Proof.Machine

/-! The invariant at reset -/

theorem homeValue_mem_range {c : Config} (hw : c.WellFormed) : c.pwmMin ≤ c.homeValue ∧ c.homeValue ≤ c.pwmMax := by
  obtain ⟨-, hlt, -⟩ := wellFormed_bounds hw
  unfold Config.homeValue
  cases c.homePolarity
  case homeAtMin => exact ⟨le_refl _, hlt.le⟩
  case homeAtMax => exact ⟨hlt.le, le_refl _⟩

theorem toInt_toWord_homeValue {c : Config} (hw : c.WellFormed) : (toWord c.homeValue).toInt = c.homeValue := by
  obtain ⟨lo, hi⟩ := homeValue_mem_range hw
  rw [← clamp_of_mem lo hi, toInt_toWord_clamp hw]

theorem atReset_inv {c : Config} (hw : c.WellFormed) : (Block.atReset c).Inv c := by
  obtain ⟨lo, hi⟩ := homeValue_mem_range hw
  obtain ⟨-, -, -, hmin, -, -, -, hoff, -, hperiod, -⟩ := wellFormed_bounds hw
  have hpw : (Block.atReset c).pw.toInt = c.homeValue := toInt_toWord_homeValue hw
  exact {
    pw_ge_min := by rwa [hpw]
    pw_le_max := by rwa [hpw]
    home_iff := by rw [hpw]; simp [lvl]
    servo_iff := by simp [servoInactive, servoActive]
    idle_done := fun _ => ⟨rfl, rfl⟩
    wait_le_chunk := Nat.zero_le _
    tcnt_lt_period := by rw [Block.atReset_tcnt]; omega
    rem_nonneg := le_refl 0
    hold_ends := nofun
    hold_no_tick := nofun
    tick_fresh := fun _ _ => rfl }

/-- R32: whatever stimulus is listed. -/
theorem powerOn_inv {c : Config} (hw : c.WellFormed) (stim : List Stim3) :
    ({ State.powerOn c with inputs := stim } : State).Inv c := ⟨hw, atReset_inv hw⟩

/-- Settles O52: the reset values of R32 meet each clause. -/
theorem invariantHoldsAfterReset : Obligations.InvariantHoldsAfterReset :=
  ⟨fun _ hw => powerOn_inv hw [], powerOn_inv built_wellFormed []⟩

/-! Each effect keeps the invariant; a clause not named is one whose fields the effect leaves alone -/

namespace Block.Inv

variable {c : Config} {b : Block}

theorem latchStep (h : b.Inv c) (d : Level) : (b.latchStep d).Inv c := { h with }

theorem serveStep (h : b.Inv c) (hw : c.WellFormed) (t : Int) : (b.serveStep c t).Inv c := by
  obtain ⟨-, hlt, -⟩ := wellFormed_bounds hw
  have hpw : (b.serveStep c t).pw.toInt = clamp c t := toInt_toWord_clamp hw t
  exact { h with
    pw_ge_min := by rw [hpw]; exact clamp_ge_min hlt t
    pw_le_max := by rw [hpw]; exact clamp_le_max hlt t
    home_iff := by rw [hpw]; rfl }

/-- R78, R88: a tick that comes in `IDLE` leaves the timer at 0. -/
theorem elapse_of_idle (h : b.Inv c) (hp : b.phase = .idle) (ht : b.tickPend = false) : (b.elapse c).Inv c := by
  have hlt := h.tcnt_lt_period
  exact { h with
    idle_done := by simpa [hp] using h.idle_done hp
    wait_le_chunk := by simpa [hp] using h.wait_le_chunk
    tcnt_lt_period := by rw [Block.elapse_tcnt]; split_ifs <;> omega
    hold_ends := by simp [hp]
    hold_no_tick := by simp [hp]
    tick_fresh := by simp [ht] }

/-- R88: while a wait runs the timer is short of the tick, because the hold ends before it. -/
theorem tcnt_succ_lt_period (h : b.Inv c) (hw : c.WellFormed) (hp : b.phase = .hold) (hwait : 0 < b.wait) :
    b.tcnt + 1 < c.period := by
  obtain ⟨-, -, -, -, -, -, -, -, -, hperiod, -⟩ := wellFormed_bounds hw
  have hends := h.hold_ends hp
  have hrem := h.rem_nonneg
  omega

theorem elapse_of_hold (h : b.Inv c) (hw : c.WellFormed) (hp : b.phase = .hold) (hwait : 0 < b.wait) :
    (b.elapse c).Inv c := by
  have hlt := h.tcnt_succ_lt_period hw hp hwait
  have hchunk := h.wait_le_chunk
  have hends := h.hold_ends hp
  exact { h with
    idle_done := by simp [hp]
    wait_le_chunk := by rw [Block.elapse_wait, if_pos hp]; omega
    tcnt_lt_period := by rwa [Block.elapse_tcnt, if_neg hlt.ne]
    hold_ends := fun _ => by
      rw [Block.elapse_tcnt, if_neg hlt.ne, Block.elapse_wait, if_pos hp, Block.elapse_rem]
      omega
    hold_no_tick := fun _ => by rw [Block.elapse_tickPend, if_neg hlt.ne]; exact h.hold_no_tick hp
    tick_fresh := by simp [hp] }

theorem toInt_toWord_holdRequest (h : b.Inv c) (hw : c.WellFormed) :
    (toWord (holdRequest c b)).toInt = b.pw.toInt + c.pulseOffset := by
  obtain ⟨-, -, -, hmin, -, -, -, hoff, hmax, -⟩ := wellFormed_bounds hw
  have lo := h.pw_ge_min
  have hi := h.pw_le_max
  refine toInt_toWord ?_ ?_ <;> simp only [holdRequest, minSigned, maxSigned, Width] at * <;> omega

/-- R88: the pulse starts with the timer where its tick left it, at 0, so the whole hold lies before the next tick. -/
theorem enterHold (h : b.Inv c) (hw : c.WellFormed) (hp : b.phase = .idle) (ht : b.tickPend = true) :
    (b.enterHold c).Inv c := by
  obtain ⟨-, -, -, hmin, -, -, -, hoff, -⟩ := wellFormed_bounds hw
  have lo := h.pw_ge_min
  have hi := h.pw_le_max
  have htcnt := h.tick_fresh hp ht
  have hrem : (b.enterHold c).rem.toInt = b.pw.toInt + c.pulseOffset := h.toInt_toWord_holdRequest hw
  exact { h with
    servo_iff := by simp
    idle_done := nofun
    wait_le_chunk := Nat.zero_le _
    rem_nonneg := by rw [hrem]; omega
    hold_ends := fun _ => by rw [hrem, Block.enterHold_tcnt, Block.enterHold_wait, htcnt]; omega
    hold_no_tick := fun _ => rfl
    tick_fresh := nofun }

/-- R80, R81: the units of the wait are taken from the count, so the hold ends when it did. -/
theorem startWait (h : b.Inv c) (hp : b.phase = .hold) (hwait : b.wait = 0) {n : Nat} (hn : n ≤ c.chunk)
    (hle : (n : Int) ≤ b.rem.toInt) : (b.startWait n).Inv c := by
  obtain ⟨lo, hi⟩ := word_toInt_bounds b.rem
  have hends := h.hold_ends hp
  have hrem : (b.startWait n).rem.toInt = b.rem.toInt - n :=
    toInt_toWord (by simp only [minSigned, Width]; omega) (by omega)
  exact { h with
    idle_done := by simp [hp]
    wait_le_chunk := hn
    rem_nonneg := by rw [hrem]; omega
    hold_ends := fun _ => by rw [hrem, Block.startWait_tcnt, Block.startWait_wait]; omega }

/-- R82: the count is exactly 0, and no tick came in the hold. -/
theorem leaveHold (h : b.Inv c) (hp : b.phase = .hold) (hwait : b.wait = 0) (hle : b.rem.toInt ≤ 0) :
    b.leaveHold.Inv c := by
  have hrem : b.rem = 0 := (word_eq_zero_iff b.rem).2 (le_antisymm hle h.rem_nonneg)
  exact { h with
    servo_iff := by simp [servoInactive, servoActive]
    idle_done := fun _ => ⟨hwait, hrem⟩
    hold_ends := nofun
    hold_no_tick := nofun
    tick_fresh := by simp [h.hold_no_tick hp] }

/-- Every operation that is enabled keeps the invariant. -/
theorem effectOf (h : b.Inv c) (hw : c.WellFormed) {i : Instr} (he : enabled c b i = true) :
    (effectOf i c b).Inv c := by
  cases i with
  | reset => exact atReset_inv hw
  | edge0 => exact h.latchStep false
  | edge1 => exact h.latchStep true
  | stepDec => exact h.serveStep hw (decTarget c b)
  | stepInc => exact h.serveStep hw (incTarget c b)
  | pulseStart =>
    obtain ⟨hp, ht⟩ := (enabled_pulseStart c b).1 he
    exact h.enterHold hw hp ht
  | timeIdle =>
    obtain ⟨hp, ht, -⟩ := (enabled_timeIdle c b).1 he
    exact h.elapse_of_idle hp ht
  | timeWait =>
    obtain ⟨hp, hwait⟩ := (enabled_timeWait c b).1 he
    exact h.elapse_of_hold hw hp hwait
  | holdChunk =>
    obtain ⟨hp, hwait, hle⟩ := (enabled_holdChunk c b).1 he
    exact h.startWait hp hwait le_rfl hle
  | holdUnit =>
    obtain ⟨hp, hwait, hpos, -⟩ := (enabled_holdUnit c b).1 he
    obtain ⟨-, -, -, -, -, -, hchunk, -⟩ := wellFormed_bounds hw
    exact h.startWait hp hwait hchunk hpos
  | pulseEnd =>
    obtain ⟨hp, hwait, hle⟩ := (enabled_pulseEnd c b).1 he
    exact h.leaveHold hp hwait hle
  | reservedUnreachable => exact h

end Block.Inv

/-! Every operation, step and run keeps the invariant -/

theorem execUnder_inv {c : Config} {i : Instr} {s t : State} (h : s.Inv c) (hst : execUnder c i s = .next t) :
    t.Inv c := by
  obtain ⟨hw, he, rfl⟩ := (execUnder_eq_next_iff c i s t).1 hst
  exact ⟨hw, h.block.effectOf hw he⟩

theorem stepUnder_inv {c : Config} {s t : State} (h : s.Inv c) (hst : stepUnder c s = .next t) : t.Inv c := by
  have hconsume : (s.consume c).Inv c := ⟨h.wellFormed, h.block⟩
  rw [stepUnder_of_wellFormed h.wellFormed] at hst
  exact execUnder_inv hconsume hst

theorem runSteps_inv {c : Config} {n : Nat} {s t : State} (h : s.Inv c) (hst : runSteps c n s = .next t) :
    t.Inv c := by
  induction n generalizing s with
  | zero => cases hst; exact h
  | succ n ih =>
    obtain ⟨u, hu, hut⟩ := runSteps_succ_eq_next hst
    exact ih (stepUnder_inv h hu) hut

theorem step_eq_stepUnder_built (s : State) : step s = stepUnder Config.built s :=
  execAndStepRunTheBuiltConfiguration.2.1 s

/-- Settles O53: a step is an enabled operation, and each effect keeps the invariant where its operation is enabled. -/
theorem everyStepKeepsTheInvariant : Obligations.EveryStepKeepsTheInvariant :=
  ⟨fun _ _ _ h hst => stepUnder_inv h hst, fun s _ h hst => stepUnder_inv h (step_eq_stepUnder_built s ▸ hst)⟩

/-- Settles O54: `PW` in range is a clause of the invariant, which power-on meets and every run keeps. -/
theorem reachableStatesKeepPulseWidthInRange : Obligations.ReachableStatesKeepPulseWidthInRange := by
  intro c stim n t hw hrun
  have hinv := runSteps_inv (powerOn_inv hw stim) hrun
  exact ⟨hinv.block.pw_ge_min, hinv.block.pw_le_max⟩

/-! The writers of each element: what every other operation leaves unchanged -/

section Frame

variable {i : Instr} (c : Config) (b : Block)

theorem effectOf_pw_of_not_writer (hi : i ∉ [Instr.reset, .stepDec, .stepInc]) : (effectOf i c b).pw = b.pw := by
  cases i with
  | reset | stepDec | stepInc => simp at hi
  | _ => rfl

theorem effectOf_homeOut_of_not_writer (hi : i ∉ [Instr.reset, .stepDec, .stepInc]) :
    (effectOf i c b).homeOut = b.homeOut := by
  cases i with
  | reset | stepDec | stepInc => simp at hi
  | _ => rfl

theorem effectOf_servoOut_of_not_writer (hi : i ∉ [Instr.reset, .pulseStart, .pulseEnd]) :
    (effectOf i c b).servoOut = b.servoOut := by
  cases i with
  | reset | pulseStart | pulseEnd => simp at hi
  | _ => rfl

theorem effectOf_stepPend_of_not_writer (hi : i ∉ [Instr.reset, .edge0, .edge1, .stepDec, .stepInc]) :
    (effectOf i c b).stepPend = b.stepPend := by
  cases i with
  | reset | edge0 | edge1 | stepDec | stepInc => simp at hi
  | _ => rfl

theorem effectOf_dirLat_of_not_writer (hi : i ∉ [Instr.reset, .edge0, .edge1]) :
    (effectOf i c b).dirLat = b.dirLat := by
  cases i with
  | reset | edge0 | edge1 => simp at hi
  | _ => rfl

theorem effectOf_tickPend_of_not_writer (hi : i ∉ [Instr.reset, .timeIdle, .timeWait, .pulseStart]) :
    (effectOf i c b).tickPend = b.tickPend := by
  cases i with
  | reset | timeIdle | timeWait | pulseStart => simp at hi
  | _ => rfl

theorem effectOf_phase_of_not_writer (hi : i ∉ [Instr.reset, .pulseStart, .pulseEnd]) :
    (effectOf i c b).phase = b.phase := by
  cases i with
  | reset | pulseStart | pulseEnd => simp at hi
  | _ => rfl

theorem effectOf_rem_of_not_writer (hi : i ∉ [Instr.reset, .pulseStart, .holdChunk, .holdUnit]) :
    (effectOf i c b).rem = b.rem := by
  cases i with
  | reset | pulseStart | holdChunk | holdUnit => simp at hi
  | _ => rfl

/-- `TIME` in `IDLE` has the effect of `TIME` in `HOLD`, but is enabled only where no wait runs down. -/
theorem effectOf_wait_of_not_writer (he : enabled c b i = true)
    (hi : i ∉ [Instr.reset, .pulseStart, .holdChunk, .holdUnit, .timeWait]) : (effectOf i c b).wait = b.wait := by
  cases i with
  | reset | pulseStart | holdChunk | holdUnit | timeWait => simp at hi
  | timeIdle =>
    obtain ⟨hp, -, -⟩ := (enabled_timeIdle c b).1 he
    simp [effectOf, hp]
  | _ => rfl

theorem effectOf_tcnt_of_not_writer (hi : i ∉ [Instr.reset, .timeIdle, .timeWait]) :
    (effectOf i c b).tcnt = b.tcnt := by
  cases i with
  | reset | timeIdle | timeWait => simp at hi
  | _ => rfl

end Frame

/-- Settles O31: an operation that is not among an element's writers leaves it unchanged. -/
theorem eachElementHasOnlyItsWriters : Obligations.EachElementHasOnlyItsWriters := by
  intro c i s t hst
  obtain ⟨-, he, rfl⟩ := (execUnder_eq_next_iff c i s t).1 hst
  exact ⟨not_imp_comm.1 (effectOf_pw_of_not_writer c _), not_imp_comm.1 (effectOf_homeOut_of_not_writer c _),
    not_imp_comm.1 (effectOf_servoOut_of_not_writer c _), not_imp_comm.1 (effectOf_stepPend_of_not_writer c _),
    not_imp_comm.1 (effectOf_dirLat_of_not_writer c _), not_imp_comm.1 (effectOf_tickPend_of_not_writer c _),
    not_imp_comm.1 (effectOf_phase_of_not_writer c _), not_imp_comm.1 (effectOf_rem_of_not_writer c _),
    not_imp_comm.1 (effectOf_wait_of_not_writer c _ he), not_imp_comm.1 (effectOf_tcnt_of_not_writer c _),
    rfl, rfl, rfl⟩

/-! The two output lines -/

/-- A block with other levels on its output lines. -/
def Block.withLines (h v : Level) (b : Block) : Block := { b with homeOut := h, servoOut := v }

theorem sel7_withLines (c : Config) (h v : Level) (b : Block) : sel7 c (b.withLines h v) = sel7 c b := rfl

theorem enabled_withLines (c : Config) (h v : Level) (b : Block) (i : Instr) :
    enabled c (b.withLines h v) i = enabled c b i := by
  cases i <;> rfl

theorem selected_withLines (c : Config) (h v : Level) (s : State) :
    ({ s with block := s.block.withLines h v } : State).selected c = s.selected c := by
  simp only [State.selected, State.candidates, State.stimulus, sel7_withLines]

/-- R29: an effect gives a line a level of its own or leaves the line alone, and gives everything else what it gives
without the change. -/
theorem effectOf_withLines (c : Config) (h v : Level) (b : Block) (i : Instr) :
    effectOf i c (b.withLines h v) = (effectOf i c b).withLines
      (if i ∈ [Instr.reset, .stepDec, .stepInc] then (effectOf i c b).homeOut else h)
      (if i ∈ [Instr.reset, .pulseStart, .pulseEnd] then (effectOf i c b).servoOut else v) := by
  cases i <;> rfl

/-- Settles O50: neither selection, enabling nor effect reads a line. -/
theorem outputLinesAreNeverRead : Obligations.OutputLinesAreNeverRead := by
  intro c s h v
  refine ⟨selected_withLines c h v s, fun i t hst => ?_⟩
  obtain ⟨hw, he, rfl⟩ := (execUnder_eq_next_iff c i s t).1 hst
  have he' : enabled c (s.block.withLines h v) i = true := (enabled_withLines c h v s.block i).trans he
  refine (execUnder_of_enabled (s := { s with block := s.block.withLines h v }) hw he').trans ?_
  rw [effectOf_withLines]
  rfl

/-! Time passing with nothing to do -/

/-- A run of two parts. -/
theorem runSteps_add {c : Config} {m : Nat} {s t : State} (h : runSteps c m s = .next t) (n : Nat) :
    runSteps c (m + n) s = runSteps c n t := by
  induction m generalizing s with
  | zero => cases h; rw [Nat.zero_add]
  | succ m ih =>
    obtain ⟨u, hsu, hut⟩ := runSteps_succ_eq_next h
    rw [Nat.succ_add, runSteps_succ_of_next hsu, ih hut]

/-- A run and one step more. -/
theorem runSteps_succ_of_run {c : Config} {n : Nat} {s t u : State} (h : runSteps c n s = .next t)
    (hu : stepUnder c t = .next u) : runSteps c (n + 1) s = .next u := by
  rw [runSteps_add h 1]
  exact runSteps_succ_of_next hu 0

/-- R54: with `ph`, `tick_pend` and `step_pend` at 0 the word selects `TIME`, whatever its other bits. -/
theorem decodeSel_timeIdle : ∀ inc wnz ge gt : Bool,
    decodeSel (BitVec.ofBool false ++ BitVec.ofBool false ++ BitVec.ofBool false ++ BitVec.ofBool inc ++
      BitVec.ofBool wnz ++ BitVec.ofBool ge ++ BitVec.ofBool gt) = [.timeIdle] := by
  decide

theorem candidates_of_no_request {c : Config} {s : State} (hp : s.block.phase = .idle)
    (ht : s.block.tickPend = false) (hs : s.block.stepPend = false) : s.candidates c = [.timeIdle] := by
  rw [State.candidates, sel7, hp, ht, hs]
  exact decodeSel_timeIdle _ _ _ _

/-- With no stimulus listed and no request pending in `IDLE`, a step is the passing of one unit. -/
theorem stepUnder_of_no_request {c : Config} {s : State} (hw : c.WellFormed) (hin : s.inputs = [])
    (hp : s.block.phase = .idle) (ht : s.block.tickPend = false) (hs : s.block.stepPend = false) :
    stepUnder c s = .next { s with block := s.block.elapse c } := by
  have hstim : decodeStim s.stimulus = none := by rw [State.stimulus, hin]; decide
  have hcand := candidates_of_no_request (c := c) hp ht hs
  have hsel : s.selected c = .timeIdle := by simp [State.selected, hstim, hcand, arbitrate]
  have htail : s.inputs.tail = s.inputs := by rw [hin]; rfl
  have hcons : s.consume c = s := by simp [State.consume, State.arbitrates, hcand, htail]
  rw [stepUnder_of_wellFormed hw, hsel, hcons]
  exact execUnder_of_enabled hw ((enabled_timeIdle c s.block).2 ⟨hp, ht, hs⟩)

/-- The reset state with `k` units on the period timer. -/
def State.countedTo (c : Config) (k : Nat) : State :=
  { State.powerOn c with block := { Block.atReset c with tcnt := k } }

theorem stepUnder_countedTo {c : Config} (hw : c.WellFormed) (k : Nat) :
    stepUnder c (State.countedTo c k) =
      .next { State.powerOn c with block := ({ Block.atReset c with tcnt := k } : Block).elapse c } :=
  stepUnder_of_no_request hw rfl rfl rfl rfl

theorem runSteps_powerOn {c : Config} (hw : c.WellFormed) (k : Nat) (hk : k < c.period) :
    runSteps c k (State.powerOn c) = .next (State.countedTo c k) := by
  induction k with
  | zero => rfl
  | succ k ih =>
    rw [runSteps_succ_of_run (ih (Nat.lt_of_succ_lt hk)) (stepUnder_countedTo hw k)]
    simp [Block.elapse, State.countedTo, hk.ne]

/-- Settles O44: `PERIOD - 1` units are counted, and the next one wraps the timer. -/
theorem firstTickComesOnePeriodAfterReset : Obligations.FirstTickComesOnePeriodAfterReset := by
  intro c hw
  refine ⟨fun k hk => runSteps_powerOn hw k hk, ?_⟩
  have hpos : 0 < c.period := (atReset_inv hw).tcnt_lt_period
  obtain ⟨k, hk⟩ := Nat.exists_eq_add_one_of_ne_zero hpos.ne'
  rw [hk, runSteps_succ_of_run (runSteps_powerOn hw k (by omega)) (stepUnder_countedTo hw k)]
  simp [Block.elapse, hk]

end Sys2Proof.Machine
end

section
/-! The sampled pulse width (R40, R90): `PW` is read by the step operations and by `PULSE_START` alone, so a running
pulse uses the width it sampled. -/

namespace Sys2Proof.Machine

/-- A block with another value in `PW`. -/
def Block.withPw (v : Word) (b : Block) : Block := { b with pw := v }

theorem sel7_withPw (c : Config) (v : Word) (b : Block) : sel7 c (b.withPw v) = sel7 c b := rfl

theorem enabled_withPw (c : Config) (v : Word) (b : Block) (i : Instr) :
    enabled c (b.withPw v) i = enabled c b i := by
  cases i <;> rfl

theorem selected_withPw (c : Config) (v : Word) (s : State) :
    ({ s with block := s.block.withPw v } : State).selected c = s.selected c := by
  simp only [State.selected, State.candidates, State.stimulus, sel7_withPw]

/-- R40, R90: an effect that is not `RESET`'s (which writes `PW` with a value of its own), a step operation's or
`PULSE_START`'s gives everything but `PW` what it gives without the change, and carries `PW` over. -/
theorem effectOf_withPw {i : Instr} (hi : i ∉ [Instr.reset, .stepDec, .stepInc, .pulseStart]) (c : Config) (v : Word)
    (b : Block) : effectOf i c (b.withPw v) = (effectOf i c b).withPw v := by
  cases i with
  | reset | stepDec | stepInc | pulseStart => simp at hi
  | _ => rfl

/-- Settles O49: selection and enabling do not read `PW`, and these effects neither read nor write it. -/
theorem pulseKeepsTheSampledWidth : Obligations.PulseKeepsTheSampledWidth := by
  intro c s t i v
  refine ⟨selected_withPw c v s, fun hi hst => ?_⟩
  obtain ⟨hw, he, rfl⟩ := (execUnder_eq_next_iff c i s t).1 hst
  have hpw : i ∉ [Instr.reset, .stepDec, .stepInc] := fun h => hi (List.mem_append_left [Instr.pulseStart] h)
  have he' : enabled c (s.block.withPw v) i = true := (enabled_withPw c v s.block i).trans he
  refine ⟨effectOf_pw_of_not_writer c s.block hpw,
    (execUnder_of_enabled (s := { s with block := s.block.withPw v }) hw he').trans ?_⟩
  rw [effectOf_withPw hi]
  rfl

end Sys2Proof.Machine
end

section
/-! The encodings (30_encoding.md): the stimulus word (R48, R49, R52), the selection word (R53, R54, R56), the words of
the opcode table (R58), and the operation a step selects (R47). -/

namespace Sys2Proof.Machine

/-! The stimulus word -/

theorem stimWord_bits (c : Config) (before : Level) (now : InputLines) :
    (stimWord c before now).getLsbD 2 = now.rst ∧
    (stimWord c before now).getLsbD 1 = qualifies c before now.stepIn ∧
    (stimWord c before now).getLsbD 0 = now.dirIn := by
  have bits : ∀ rst edge dir : Bool,
      (BitVec.ofBool rst ++ BitVec.ofBool edge ++ BitVec.ofBool dir).getLsbD 2 = rst ∧
      (BitVec.ofBool rst ++ BitVec.ofBool edge ++ BitVec.ofBool dir).getLsbD 1 = edge ∧
      (BitVec.ofBool rst ++ BitVec.ofBool edge ++ BitVec.ofBool dir).getLsbD 0 = dir := by decide
  exact bits now.rst (qualifies c before now.stepIn) now.dirIn

/-- R52's decoding of all eight words. -/
theorem decodeStim_table : ∀ rst edge dir : Bool,
    decodeStim (BitVec.ofBool rst ++ BitVec.ofBool edge ++ BitVec.ofBool dir) =
      if rst then some .reset else if edge then some (if dir then .edge1 else .edge0) else none := by
  decide

/-- Settles O1: the three bits are those the word is put together from, and its eight values are rows of R52. -/
theorem stimulusWordFormsAndDecodes : Obligations.StimulusWordFormsAndDecodes :=
  ⟨stimWord_bits, fun edge dir => decodeStim_table true edge dir, decodeStim_table false true false,
    decodeStim_table false true true, fun dir => decodeStim_table false false dir⟩

theorem qualifies_iff (c : Config) (before now : Level) :
    qualifies c before now = true ↔
      (c.stepEdge = .falling ∧ before = true ∧ now = false) ∨
      (c.stepEdge = .rising ∧ before = false ∧ now = true) := by
  unfold qualifies
  cases c.stepEdge with
  | falling => simp
  | rising => simp

/-- Settles O2: which transitions qualify is `STEP_EDGE`'s case, and with `rst` at 0 R52 decodes the other two bits. -/
theorem qualifyingEdgeIsTheConfiguredTransition : Obligations.QualifyingEdgeIsTheConfiguredTransition := by
  refine ⟨qualifies_iff, fun c before now hrst => ?_⟩
  rw [stimWord, hrst]
  exact decodeStim_table false (qualifies c before now.stepIn) now.dirIn

/-- Settles O13: `inc` compares with `DIR_DEC_LEVEL`, and the words `00x` are no operation. -/
theorem directionBitComparesWithDecrementLevel : Obligations.DirectionBitComparesWithDecrementLevel := by
  refine ⟨fun c d => ⟨inc_eq_true_iff c d, fun h => ?_⟩, fun d => decodeStim_table false false d⟩
  rw [inc, h, Bool.bne_false]

/-! The selection word -/

/-- The selection word with the given bits. -/
def selWord (ph tick step inc wnz ge gt : Bool) : Sel7 :=
  BitVec.ofBool ph ++ BitVec.ofBool tick ++ BitVec.ofBool step ++ BitVec.ofBool inc ++ BitVec.ofBool wnz ++
    BitVec.ofBool ge ++ BitVec.ofBool gt

theorem sel7_eq_selWord (c : Config) (b : Block) :
    sel7 c b = selWord (b.phase == .hold) b.tickPend b.stepPend (inc c b.dirLat) (waitNonzero b) (remAtLeastChunk c b)
      (remPositive b) := rfl

theorem selWord_bits : ∀ ph tick step inc wnz ge gt : Bool,
    (selWord ph tick step inc wnz ge gt).getLsbD 6 = ph ∧ (selWord ph tick step inc wnz ge gt).getLsbD 5 = tick ∧
    (selWord ph tick step inc wnz ge gt).getLsbD 4 = step ∧ (selWord ph tick step inc wnz ge gt).getLsbD 3 = inc ∧
    (selWord ph tick step inc wnz ge gt).getLsbD 2 = wnz ∧ (selWord ph tick step inc wnz ge gt).getLsbD 1 = ge ∧
    (selWord ph tick step inc wnz ge gt).getLsbD 0 = gt := by decide

/-- A word is put together from its own bits. -/
theorem selWord_getLsbD : ∀ w : Sel7,
    selWord (w.getLsbD 6) (w.getLsbD 5) (w.getLsbD 4) (w.getLsbD 3) (w.getLsbD 2) (w.getLsbD 1) (w.getLsbD 0) = w := by
  decide

theorem req3_selWord : ∀ ph tick step inc wnz ge gt : Bool,
    req3 (selWord ph tick step inc wnz ge gt) = BitVec.ofBool tick ++ BitVec.ofBool step ++ BitVec.ofBool inc := by
  decide

theorem hc2_selWord : ∀ ph tick step inc wnz ge gt : Bool,
    hc2 (selWord ph tick step inc wnz ge gt) = BitVec.ofBool ge ++ BitVec.ofBool gt := by
  decide

/-- Settles O11: each bit is the condition of the state that R53 puts there. -/
theorem selectionWordCollectsTheConditions : Obligations.SelectionWordCollectsTheConditions := by
  intro c b
  rw [sel7_eq_selWord]
  obtain ⟨hph, htick, hstep, hinc, hwnz, hge, hgt⟩ := selWord_bits (b.phase == .hold) b.tickPend b.stepPend
    (inc c b.dirLat) (waitNonzero b) (remAtLeastChunk c b) (remPositive b)
  rw [hph, htick, hstep, hinc, hwnz, hge, hgt]
  exact ⟨beq_iff_eq, rfl, rfl, inc_eq_true_iff c b.dirLat, decide_eq_true_iff, decide_eq_true_iff, decide_eq_true_iff,
    req3_selWord _ _ _ _ _ _ _, hc2_selWord _ _ _ _ _ _ _⟩

/-- Settles O3: R54's table, for each of the 128 words. -/
theorem selectionWordDecodesByTable : Obligations.SelectionWordDecodesByTable := by
  unfold Obligations.SelectionWordDecodesByTable
  decide

/-- Settles O4: each of the words matches the row of its operation alone. -/
theorem writtenWordsDecode : Obligations.WrittenWordsDecode := by
  unfold Obligations.WrittenWordsDecode
  decide

/-- Settles O5: the word of each operation matches its own row alone. -/
theorem encodedOperationDecodesToItself : Obligations.EncodedOperationDecodesToItself := by
  intro i hi
  cases i with
  | reservedUnreachable => exact absurd rfl hi
  | _ => decide

/-! Words that no block forms (R56) -/

/-- R54: the reserved pattern's row asks for `ge` without `gt`. -/
theorem mem_decodeSel_reserved : ∀ ph tick step inc wnz ge gt : Bool,
    Instr.reservedUnreachable ∈ decodeSel (selWord ph tick step inc wnz ge gt) →
      ge = true ∧ gt = false := by
  decide

/-- R13 (e): the chunk is positive, so a count that reaches it is positive. -/
theorem remPositive_of_remAtLeastChunk {c : Config} (hchunk : 1 ≤ c.chunk) {b : Block}
    (h : remAtLeastChunk c b = true) : remPositive b = true := by
  simp only [remAtLeastChunk, remPositive, decide_eq_true_eq] at h ⊢
  omega

/-- Settles O19: the pattern needs `ge` without `gt`, and in `IDLE` the invariant has `wait` at 0. -/
theorem unreachableSelectionsAreNeverFormed : Obligations.UnreachableSelectionsAreNeverFormed := by
  refine ⟨fun c b hw hmem => ?_, fun c s h hp => ?_⟩
  · obtain ⟨-, -, -, -, -, -, hchunk, -⟩ := wellFormed_bounds hw
    rw [sel7_eq_selWord] at hmem
    obtain ⟨hge, hgt⟩ := mem_decodeSel_reserved _ _ _ _ _ _ _ hmem
    rw [remPositive_of_remAtLeastChunk hchunk hge] at hgt
    exact Bool.noConfusion hgt
  · obtain ⟨hwait, -⟩ := h.block.idle_done hp
    obtain ⟨-, -, -, -, hwnz, -⟩ := selectionWordCollectsTheConditions c s.block
    rw [Bool.eq_false_iff, ne_eq, hwnz, hwait]
    exact lt_irrefl 0

/-- Settles O18: the pattern's meaning is the fault, under every configuration. -/
theorem reservedPatternFaults : Obligations.ReservedPatternFaults := ⟨fun _ => rfl, fun _ _ => rfl⟩

/-! The placing of a selection word (log entry 8) -/

/-- The count chosen for a word has the word's `ge` and `gt` bits. -/
theorem remFor_bits {c : Config} (hlo : 2 ≤ c.chunk) (hhi : (c.chunk : Int) ≤ maxSigned) (b : Block) {ge gt : Bool}
    (h : ge = true → gt = true) :
    decide ((c.chunk : Int) ≤ (remFor c b ge gt).toInt) = ge ∧ decide (0 < (remFor c b ge gt).toInt) = gt := by
  have hchunk : (toWord c.chunk).toInt = c.chunk := toInt_toWord (by rw [minSigned_eq]; omega) hhi
  have hone : (1 : Word).toInt = 1 := by decide
  have hzero : (0 : Word).toInt = 0 := by decide
  unfold remFor
  split_ifs with hb hge hgt
  · exact hb
  · rw [hchunk, h hge, hge]
    exact ⟨decide_eq_true le_rfl, decide_eq_true (by omega)⟩
  · rw [hone, Bool.eq_false_iff.2 hge, hgt]
    exact ⟨decide_eq_false (by omega), rfl⟩
  · rw [hzero, Bool.eq_false_iff.2 hge, Bool.eq_false_iff.2 hgt]
    exact ⟨decide_eq_false (by omega), rfl⟩

/-- Settles O6: each field the placing sets has the condition that the word's bit states. -/
theorem placedSelectionWordIsFormedAgain : Obligations.PlacedSelectionWordIsFormedAgain := by
  intro c b w hlo hhi hw
  obtain ⟨hge, hgt⟩ := remFor_bits hlo hhi b hw
  have hph : ((b.withSel c w).phase == .hold) = w.getLsbD 6 := by
    rw [Block.withSel_phase]; cases w.getLsbD 6 <;> rfl
  have hwnz : waitNonzero (b.withSel c w) = w.getLsbD 2 := by
    rw [waitNonzero, Block.withSel_wait]; cases w.getLsbD 2 <;> simp
  calc sel7 c (b.withSel c w)
      = selWord (w.getLsbD 6) (w.getLsbD 5) (w.getLsbD 4) (w.getLsbD 3) (w.getLsbD 2) (w.getLsbD 1) (w.getLsbD 0) := by
        rw [sel7_eq_selWord, hph, hwnz, Block.withSel_dirLat, inc_dirLevel, remAtLeastChunk, remPositive,
          Block.withSel_rem, hge, hgt, Block.withSel_tickPend, Block.withSel_stepPend]
    _ = w := selWord_getLsbD w

/-! The operation a step selects (R47) -/

theorem decodeSel_ne_nil : ∀ w : Sel7, decodeSel w ≠ [] := by decide

theorem arbitrate_mem (p : Priority) {is : List Instr} (h : is ≠ []) : ∃ i ∈ is, arbitrate p is = some i := by
  match is, p with
  | [], _ => exact absurd rfl h
  | [i], _ => exact ⟨i, by simp, rfl⟩
  | i :: j :: _, .stepFirst => exact ⟨i, by simp, rfl⟩
  | i :: j :: _, .tickFirst => exact ⟨j, by simp, rfl⟩

theorem selected_of_stimulus {c : Config} {s : State} {i : Instr} (h : decodeStim s.stimulus = some i) :
    s.selected c = i := by
  simp only [State.selected, h]

theorem selected_mem_candidates {c : Config} {s : State} (h : decodeStim s.stimulus = none) :
    s.selected c ∈ s.candidates c := by
  obtain ⟨i, hmem, hi⟩ := arbitrate_mem s.tieBreak (decodeSel_ne_nil (sel7 c s.block))
  have hsel : s.selected c = i := by simp only [State.selected, h, State.candidates, hi, Option.getD_some]
  rwa [hsel]

/-- Settles O10: a stimulus word's operation is the one selected, and every selection word enables one. -/
theorem stepRunsSelectedOperation : Obligations.StepRunsSelectedOperation :=
  ⟨fun _ s hw => ⟨stepUnder_of_wellFormed hw s, ⟨rfl, rfl⟩, fun _ h => selected_of_stimulus h,
    fun h => selected_mem_candidates h⟩, fun _ => rfl⟩

end Sys2Proof.Machine
end

section
/-! Full traces (R59, R60): where a line of time is legal, the lines of a hold (R84), and the expansions of `TICK` and
of `STEP` in a hold. -/

namespace Sys2Proof.Machine

/-! Traces, line by line -/

theorem runTrace_singleton (c : Config) (l : TraceLine) (s : State) : runTrace c [l] s = l.run c s := by
  simp only [runTrace]
  split
  next h => exact h.symm
  next h => exact h.symm
  next h => exact h.symm

/-- A trace that reaches a state, taken apart at its first line. -/
theorem runTrace_cons_eq_next {c : Config} {l : TraceLine} {ls : List TraceLine} {s u : State}
    (h : runTrace c (l :: ls) s = .next u) : ∃ t, l.run c s = .next t ∧ runTrace c ls t = .next u := by
  simp only [runTrace] at h
  split at h
  · next t ht => exact ⟨t, ht, h⟩
  · cases h
  · cases h

theorem runTrace_timeLines (c : Config) (n : Nat) (s : State) : runTrace c (timeLines n) s = runTime c n s := by
  unfold timeLines
  split
  next pos => exact runTrace_singleton c (.time n pos) s
  next hn =>
    obtain rfl : n = 0 := by omega
    rfl

/-! Runs of time -/

theorem timeOp_of_idle {b : Block} (hp : b.phase = .idle) : timeOp b = .timeIdle := by simp only [timeOp, hp]

theorem timeOp_of_hold {b : Block} (hp : b.phase = .hold) : timeOp b = .timeWait := by simp only [timeOp, hp]

theorem effectOf_timeOp (c : Config) (b : Block) : effectOf (timeOp b) c b = b.elapse c := by
  cases hp : b.phase
  case idle => rw [timeOp_of_idle hp]; rfl
  case hold => rw [timeOp_of_hold hp]; rfl

theorem runTime_one {c : Config} {s : State} (hw : c.WellFormed) (he : enabled c s.block (timeOp s.block) = true) :
    runTime c 1 s = .next { s with block := s.block.elapse c } := by
  simp only [runTime, execUnder_of_enabled hw he, effectOf_timeOp]

/-- A run of time that reaches a state, taken apart at its first unit. -/
theorem runTime_succ_eq_next {c : Config} {n : Nat} {s u : State} (h : runTime c (n + 1) s = .next u) :
    ∃ t, execUnder c (timeOp s.block) s = .next t ∧ runTime c n t = .next u := by
  simp only [runTime] at h
  split at h
  · next t ht => exact ⟨t, ht, h⟩
  · cases h
  · cases h

/-- A run of time in two parts. -/
theorem runTime_add {c : Config} {m : Nat} {s t : State} (h : runTime c m s = .next t) (n : Nat) :
    runTime c (m + n) s = runTime c n t := by
  induction m generalizing s with
  | zero => cases h; rw [Nat.zero_add]
  | succ m ih =>
    obtain ⟨u, hsu, hut⟩ := runTime_succ_eq_next h
    rw [Nat.succ_add]
    simp only [runTime, hsu, ih hut]

theorem runTime_ne_next {c : Config} {s : State} (he : enabled c s.block (timeOp s.block) = false) (n : Nat) :
    ¬ ∃ t, runTime c (n + 1) s = .next t := by
  rintro ⟨u, hu⟩
  obtain ⟨t, ht, -⟩ := runTime_succ_eq_next hu
  obtain ⟨-, he', -⟩ := (execUnder_eq_next_iff c _ s t).1 ht
  rw [he] at he'
  cases he'

/-- An idle block `n` units on, the last of which may be the tick. -/
def Block.idleFor (c : Config) (n : Nat) (b : Block) : Block :=
  { b with
    tcnt := if b.tcnt + n = c.period then 0 else b.tcnt + n
    tickPend := decide (b.tcnt + n = c.period) }

/-- A block `n` units on in its running wait, no tick among them. -/
def Block.waitFor (n : Nat) (b : Block) : Block := { b with wait := b.wait - n, tcnt := b.tcnt + n }

theorem elapse_idleFor {c : Config} {b : Block} (hp : b.phase = .idle) {n : Nat} (hn : b.tcnt + n < c.period) :
    (b.idleFor c n).elapse c = b.idleFor c (n + 1) := by
  by_cases htick : b.tcnt + (n + 1) = c.period
  · simp [Block.elapse, Block.idleFor, hp, hn.ne, htick, Nat.add_assoc]
  · simp [Block.elapse, Block.idleFor, hp, hn.ne, htick, Nat.add_assoc]

theorem elapse_waitFor {c : Config} {b : Block} (hp : b.phase = .hold) {n : Nat} (hn : b.tcnt + (n + 1) < c.period) :
    (b.waitFor n).elapse c = b.waitFor (n + 1) := by
  simp [Block.elapse, Block.waitFor, hp, hn.ne, Nat.add_assoc, Nat.sub_sub]

/-- R77, R78: in `IDLE` with no request pending time passes up to the next tick. -/
theorem runTime_of_idle {c : Config} {s : State} (hw : c.WellFormed) (hp : s.block.phase = .idle)
    (ht : s.block.tickPend = false) (hs : s.block.stepPend = false) (hlt : s.block.tcnt < c.period) (n : Nat)
    (hn : s.block.tcnt + n ≤ c.period) : runTime c n s = .next { s with block := s.block.idleFor c n } := by
  induction n with
  | zero => simp [runTime, Block.idleFor, hlt.ne, ← ht]
  | succ n ih =>
    have hshort : s.block.tcnt + n < c.period := by omega
    have hp' : (s.block.idleFor c n).phase = .idle := hp
    have he : enabled c (s.block.idleFor c n) (timeOp (s.block.idleFor c n)) = true := by
      rw [timeOp_of_idle hp', enabled_timeIdle]
      exact ⟨hp, decide_eq_false hshort.ne, hs⟩
    rw [runTime_add (ih hshort.le) 1, runTime_one hw he, elapse_idleFor hp hshort]

/-- R77: in a hold time passes up to the end of the running wait. -/
theorem runTime_of_hold {c : Config} {s : State} (hw : c.WellFormed) (hp : s.block.phase = .hold) (n : Nat)
    (hwait : n ≤ s.block.wait) (hn : s.block.tcnt + n < c.period) :
    runTime c n s = .next { s with block := s.block.waitFor n } := by
  induction n with
  | zero => rfl
  | succ n ih =>
    have hp' : (s.block.waitFor n).phase = .hold := hp
    have he : enabled c (s.block.waitFor n) (timeOp (s.block.waitFor n)) = true := by
      rw [timeOp_of_hold hp', enabled_timeWait]
      exact ⟨hp, Nat.sub_pos_of_lt hwait⟩
    rw [runTime_add (ih (by omega) (by omega)) 1, runTime_one hw he, elapse_waitFor hp hn]

theorem exists_runTime_idle_iff {c : Config} {s : State} (h : s.Inv c) (hp : s.block.phase = .idle)
    (ht : s.block.tickPend = false) (hs : s.block.stepPend = false) (n : Nat) :
    (∃ t, runTime c n s = .next t) ↔ s.block.tcnt + n ≤ c.period := by
  have hlt := h.block.tcnt_lt_period
  refine ⟨fun hrun => ?_, fun hn => ⟨_, runTime_of_idle h.wellFormed hp ht hs hlt n hn⟩⟩
  by_contra hn
  have hsum : s.block.tcnt + (c.period - s.block.tcnt) = c.period := by omega
  obtain ⟨m, rfl⟩ : ∃ m, n = (c.period - s.block.tcnt) + (m + 1) := ⟨s.block.tcnt + n - c.period - 1, by omega⟩
  rw [runTime_add (runTime_of_idle h.wellFormed hp ht hs hlt _ hsum.le) (m + 1)] at hrun
  have hp' : (s.block.idleFor c (c.period - s.block.tcnt)).phase = .idle := hp
  refine runTime_ne_next ?_ m hrun
  rw [timeOp_of_idle hp', Bool.eq_false_iff, ne_eq, enabled_timeIdle]
  simp [Block.idleFor, hsum]

/-- R13 (g), R88: the hold ends before the next tick. -/
theorem Block.Inv.hold_lt_period {c : Config} {b : Block} (h : b.Inv c) (hw : c.WellFormed) (hp : b.phase = .hold) :
    (b.tcnt : Int) + b.rem.toInt + b.wait < c.period := by
  obtain ⟨-, -, -, -, -, -, -, -, -, hperiod, -⟩ := wellFormed_bounds hw
  exact lt_of_le_of_lt (h.hold_ends hp) hperiod

theorem exists_runTime_hold_iff {c : Config} {s : State} (h : s.Inv c) (hp : s.block.phase = .hold) (n : Nat) :
    (∃ t, runTime c n s = .next t) ↔ n ≤ s.block.wait := by
  have hlt := h.block.hold_lt_period h.wellFormed hp
  have hrem := h.block.rem_nonneg
  refine ⟨fun hrun => ?_, fun hn => ⟨_, runTime_of_hold h.wellFormed hp n hn (by omega)⟩⟩
  by_contra hn
  obtain ⟨m, rfl⟩ : ∃ m, n = s.block.wait + (m + 1) := ⟨n - s.block.wait - 1, by omega⟩
  rw [runTime_add (runTime_of_hold h.wellFormed hp _ le_rfl (by omega)) (m + 1)] at hrun
  have hp' : (s.block.waitFor s.block.wait).phase = .hold := hp
  refine runTime_ne_next ?_ m hrun
  rw [timeOp_of_hold hp', Bool.eq_false_iff, ne_eq, enabled_timeWait]
  simp [Block.waitFor]

/-- Settles O56: time passes up to the tick, or to the end of the wait, and there `TIME` is no longer enabled. -/
theorem timeLineIsLegalExactlyWhileTimeIsEnabled : Obligations.TimeLineIsLegalExactlyWhileTimeIsEnabled := by
  intro c s n pos h
  rw [runTrace_singleton]
  refine ⟨fun hp ht hs => exists_runTime_idle_iff h hp ht hs n, fun hp => exists_runTime_hold_iff h hp n,
    fun hp hreq => ?_⟩
  obtain ⟨m, rfl⟩ := Nat.exists_eq_add_of_le' pos
  refine runTime_ne_next ?_ m
  rw [timeOp_of_idle hp, Bool.eq_false_iff, ne_eq, enabled_timeIdle]
  rintro ⟨-, ht, hs⟩
  rcases hreq with hreq | hreq
  · rw [ht] at hreq; cases hreq
  · rw [hs] at hreq; cases hreq

/-! Traces over a block: a run changes the block and nothing of what the model holds of the environment -/

/-- The trace runs from every state with the first block to the same state with the second. -/
def Carries (c : Config) (ls : List TraceLine) (b b' : Block) : Prop :=
  ∀ s : State, s.block = b → runTrace c ls s = .next { s with block := b' }

namespace Carries

variable {c : Config} {b b' b'' : Block} {ls ms : List TraceLine}

theorem nil (c : Config) (b : Block) : Carries c [] b b := by
  rintro s rfl
  rfl

theorem append (h : Carries c ls b b') (h' : Carries c ms b' b'') : Carries c (ls ++ ms) b b'' := fun s hs => by
  rw [runTrace_append c ls ms (h s hs)]
  exact h' _ rfl

theorem op {o : ExecOp} (hw : c.WellFormed) (he : enabled c b o.instr = true) :
    Carries c [.op o] b (effectOf o.instr c b) := by
  rintro s rfl
  rw [runTrace_singleton]
  exact execUnder_of_enabled hw he

theorem edge (hw : c.WellFormed) (increment : Bool) (b : Block) :
    Carries c [.edge increment] b (b.latchStep (dirLevel c increment)) := by
  rintro s rfl
  rw [runTrace_singleton, ← effectOf_edgeOp]
  exact execUnder_of_enabled hw (enabled_edgeOp c s.block increment)

theorem time_of_idle (hw : c.WellFormed) (hp : b.phase = .idle) (ht : b.tickPend = false) (hs : b.stepPend = false)
    (hlt : b.tcnt < c.period) (n : Nat) (hn : b.tcnt + n ≤ c.period) :
    Carries c (timeLines n) b (b.idleFor c n) := by
  rintro s rfl
  rw [runTrace_timeLines]
  exact runTime_of_idle hw hp ht hs hlt n hn

theorem time_of_hold (hw : c.WellFormed) (hp : b.phase = .hold) (n : Nat) (hwait : n ≤ b.wait)
    (hn : b.tcnt + n < c.period) : Carries c (timeLines n) b (b.waitFor n) := by
  rintro s rfl
  rw [runTrace_timeLines]
  exact runTime_of_hold hw hp n hwait hn

end Carries

/-! The lines of a hold (R80, R81, R84) -/

/-- A block `n` units on in its hold, at the end of a wait. -/
def Block.heldFor (n : Nat) (b : Block) : Block :=
  { b with rem := toWord (b.rem.toInt - n), wait := 0, tcnt := b.tcnt + n }

theorem heldFor_zero {b : Block} (hwait : b.wait = 0) : b.heldFor 0 = b := by
  have hrem : toWord b.rem.toInt = b.rem := BitVec.ofInt_toInt
  unfold Block.heldFor
  rw [Nat.cast_zero, Int.sub_zero, hrem, Nat.add_zero, ← hwait]

theorem toInt_rem_heldFor {b : Block} {n : Nat} (hn : (n : Int) ≤ b.rem.toInt) :
    (b.heldFor n).rem.toInt = b.rem.toInt - n := by
  obtain ⟨-, hi⟩ := word_toInt_bounds b.rem
  exact toInt_toWord (by rw [minSigned_eq]; omega) (by omega)

theorem heldFor_heldFor {b : Block} {m : Nat} (hm : (m : Int) ≤ b.rem.toInt) (n : Nat) :
    (b.heldFor m).heldFor n = b.heldFor (m + n) := by
  have hrem : (b.heldFor m).rem.toInt - n = b.rem.toInt - (m + n : Nat) := by rw [toInt_rem_heldFor hm]; omega
  unfold Block.heldFor at hrem ⊢
  simp only [hrem, Nat.add_assoc]

/-- A hold operation and its wait. -/
theorem carries_op_wait {c : Config} {o : ExecOp} {k : Nat} {b : Block} (hw : c.WellFormed)
    (heff : effectOf o.instr c b = b.startWait k) (he : enabled c b o.instr = true) (hp : b.phase = .hold)
    (ht : b.tcnt + k < c.period) : Carries c (.op o :: timeLines k) b (b.heldFor k) := by
  have hwaited : (b.startWait k).waitFor k = b.heldFor k := by
    simp [Block.waitFor, Block.startWait, Block.heldFor]
  rw [← hwaited, ← heff]
  exact (Carries.op hw he).append (heff ▸ Carries.time_of_hold (b := b.startWait k) hw hp k le_rfl ht)

/-- `n` times the same hold operation, each with its wait. -/
theorem carries_op_waits {c : Config} {o : ExecOp} {k : Nat} {b : Block} (hw : c.WellFormed)
    (heff : ∀ b, effectOf o.instr c b = b.startWait k) (hp : b.phase = .hold) (hwait : b.wait = 0) (n : Nat)
    (hrem : ((n * k : Nat) : Int) ≤ b.rem.toInt) (ht : b.tcnt + n * k < c.period)
    (he : ∀ j < n, enabled c (b.heldFor (j * k)) o.instr = true) :
    Carries c (List.replicate n (.op o :: timeLines k)).flatten b (b.heldFor (n * k)) := by
  induction n with
  | zero => rw [Nat.zero_mul, heldFor_zero hwait]; exact Carries.nil c b
  | succ n ih =>
    rw [Nat.succ_mul] at hrem ht ⊢
    have first := ih (by omega) (by omega) fun j hj => he j (by omega)
    have last := carries_op_wait (k := k) hw (heff _) (he n (Nat.lt_succ_self n)) hp (by
      change b.tcnt + n * k + k < c.period; omega)
    rw [List.replicate_succ', List.flatten_append, List.flatten_singleton, ← heldFor_heldFor (by omega)]
    exact first.append last

theorem enabled_holdChunk_heldFor {c : Config} {b : Block} (hp : b.phase = .hold) {n : Nat}
    (hn : (n : Int) + c.chunk ≤ b.rem.toInt) : enabled c (b.heldFor n) .holdChunk = true := by
  refine (enabled_holdChunk c _).2 ⟨hp, rfl, ?_⟩
  rw [toInt_rem_heldFor (by omega)]
  omega

theorem enabled_holdUnit_heldFor {c : Config} {b : Block} (hp : b.phase = .hold) {n : Nat}
    (hlo : (n : Int) < b.rem.toInt) (hhi : b.rem.toInt < n + c.chunk) : enabled c (b.heldFor n) .holdUnit = true := by
  have hrem := toInt_rem_heldFor hlo.le
  refine (enabled_holdUnit c _).2 ⟨hp, rfl, ?_, ?_⟩
  · omega
  · omega

theorem carries_chunks {c : Config} {b : Block} (hw : c.WellFormed) (hp : b.phase = .hold) (hwait : b.wait = 0)
    (q : Nat) (hrem : ((q * c.chunk : Nat) : Int) ≤ b.rem.toInt) (ht : b.tcnt + q * c.chunk < c.period) :
    Carries c (List.replicate q (.op .holdChunk :: timeLines c.chunk)).flatten b (b.heldFor (q * c.chunk)) := by
  refine carries_op_waits hw (fun _ => rfl) hp hwait q hrem ht fun j hj => enabled_holdChunk_heldFor hp ?_
  have hle : (j + 1) * c.chunk ≤ q * c.chunk := Nat.mul_le_mul_right c.chunk hj
  rw [Nat.succ_mul] at hle
  omega

theorem carries_units {c : Config} {b : Block} (hw : c.WellFormed) (hp : b.phase = .hold) (hwait : b.wait = 0)
    {r : Nat} (hrem : b.rem.toInt = r) (hr : r < c.chunk) (ht : b.tcnt + r < c.period) :
    Carries c (List.replicate r (.op .holdUnit :: timeLines 1)).flatten b (b.heldFor r) := by
  have units := carries_op_waits (o := .holdUnit) (k := 1) hw (fun _ => rfl) hp hwait r (by omega) (by omega)
    fun j hj => enabled_holdUnit_heldFor hp (by omega) (by omega)
  rwa [Nat.mul_one] at units

/-- R84: `D div CHUNK` chunks, then `D mod CHUNK` units. -/
theorem carries_holdLines {c : Config} {b : Block} (hw : c.WellFormed) (hp : b.phase = .hold) (hwait : b.wait = 0)
    {d : Nat} (hd : b.rem.toInt = d) (ht : b.tcnt + d < c.period) : Carries c (holdLines c d) b (b.heldFor d) := by
  obtain ⟨-, -, -, -, -, -, hchunk, -⟩ := wellFormed_bounds hw
  have hdiv : d / c.chunk * c.chunk + d % c.chunk = d := Nat.div_add_mod' d c.chunk
  have hle : ((d / c.chunk * c.chunk : Nat) : Int) ≤ b.rem.toInt := by omega
  have hrem : (b.heldFor (d / c.chunk * c.chunk)).rem.toInt = (d % c.chunk : Nat) := by
    rw [toInt_rem_heldFor hle]; omega
  have chunks := carries_chunks hw hp hwait (d / c.chunk) hle (by omega)
  have units := carries_units (b := b.heldFor (d / c.chunk * c.chunk)) hw hp rfl hrem (Nat.mod_lt d hchunk) (by
    change b.tcnt + d / c.chunk * c.chunk + d % c.chunk < c.period; omega)
  rw [heldFor_heldFor hle, hdiv] at units
  exact chunks.append units

/-- A block at the end of its hold, all the units left having passed. -/
def Block.holdOver (b : Block) : Block :=
  { b with rem := 0, wait := 0, tcnt := b.tcnt + b.wait + b.rem.toInt.toNat }

theorem heldFor_waitFor (b : Block) (hrem : 0 ≤ b.rem.toInt) :
    (b.waitFor b.wait).heldFor b.rem.toInt.toNat = b.holdOver := by
  have hsub : b.rem.toInt - b.rem.toInt.toNat = 0 := by omega
  have hzero : toWord 0 = 0 := by decide
  simp only [Block.waitFor, Block.heldFor, Block.holdOver, hsub, hzero]

/-- R83, R84: the running wait, the rest of the hold and its end. -/
theorem carries_untilIdleLines {c : Config} {b : Block} (hw : c.WellFormed) (h : b.Inv c) (hp : b.phase = .hold) :
    Carries c (untilIdleLines c b) b b.holdOver.leaveHold := by
  have hlt := h.hold_lt_period hw hp
  have hrem := h.rem_nonneg
  have waited := Carries.time_of_hold hw hp b.wait le_rfl (by omega)
  have held := carries_holdLines (b := b.waitFor b.wait) (d := b.rem.toInt.toNat) hw hp (Nat.sub_self _)
    (Int.toNat_of_nonneg hrem).symm (by change b.tcnt + b.wait + b.rem.toInt.toNat < c.period; omega)
  have ended : Carries c [.op .pulseEnd] b.holdOver b.holdOver.leaveHold :=
    Carries.op hw ((enabled_pulseEnd c _).2 ⟨hp, rfl, le_refl 0⟩)
  rw [heldFor_waitFor b hrem] at held
  have lines : untilIdleLines c b =
      timeLines b.wait ++ holdLines c b.rem.toInt.toNat ++ [.op .pulseEnd] := by simp only [untilIdleLines, hp]
  rw [lines]
  exact (waited.append held).append ended

/-! The pseudo-instruction `TICK` -/

theorem idleFor_inv {c : Config} {b : Block} (h : b.Inv c) (hp : b.phase = .idle) {n : Nat}
    (hn : b.tcnt + n ≤ c.period) : (b.idleFor c n).Inv c := by
  have hlt := h.tcnt_lt_period
  have hphase : (b.idleFor c n).phase ≠ .hold := by rw [Block.idleFor, hp]; nofun
  exact { h with
    tcnt_lt_period := by simp only [Block.idleFor]; split_ifs <;> omega
    hold_ends := fun hhold => absurd hhold hphase
    hold_no_tick := fun hhold => absurd hhold hphase
    tick_fresh := fun _ htick => if_pos (of_decide_eq_true htick) }

/-- R79, R84: the pulse of a pending tick. -/
theorem carries_pulse {c : Config} {b : Block} (hw : c.WellFormed) (h : b.Inv c) (hp : b.phase = .idle)
    (ht : b.tickPend = true) :
    Carries c (.op .pulseStart :: holdLines c (holdRequest c b).toNat ++ [.op .pulseEnd]) b
      (b.enterHold c).holdOver.leaveHold := by
  have started : Carries c [.op .pulseStart] b (b.enterHold c) :=
    Carries.op hw ((enabled_pulseStart c b).2 ⟨hp, ht⟩)
  have hrem : (b.enterHold c).rem.toInt = holdRequest c b := h.toInt_toWord_holdRequest hw
  have lines : untilIdleLines c (b.enterHold c) = holdLines c (holdRequest c b).toNat ++ [.op .pulseEnd] := by
    simp only [untilIdleLines, Block.enterHold_phase, Block.enterHold_wait, hrem]
    rfl
  have held := carries_untilIdleLines hw (h.enterHold hw hp ht) rfl
  rw [lines] at held
  exact started.append held

/-- Settles O43: time up to the tick, then its pulse. -/
theorem tickExpansionRunsToTheEndOfThePulse : Obligations.TickExpansionRunsToTheEndOfThePulse := by
  intro c s h hp ht hs
  have hsum : s.block.tcnt + (c.period - s.block.tcnt) = c.period := by
    have hlt := h.block.tcnt_lt_period
    omega
  have timed := Carries.time_of_idle h.wellFormed hp ht hs h.block.tcnt_lt_period (c.period - s.block.tcnt) hsum.le
  have pulse := carries_pulse h.wellFormed (idleFor_inv h.block hp hsum.le) hp (decide_eq_true hsum)
  have expansion : Pseudo.tick.expand c s.block =
      some (timeLines (c.period - s.block.tcnt) ++
        (.op .pulseStart :: holdLines c (holdRequest c s.block).toNat ++ [.op .pulseEnd])) := by
    simp only [Pseudo.expand, hp, ht, and_self, if_true, List.append_assoc]
  have hrem : ((s.block.idleFor c (c.period - s.block.tcnt)).enterHold c).rem.toInt =
      s.block.pw.toInt + c.pulseOffset := (idleFor_inv h.block hp hsum.le).toInt_toWord_holdRequest h.wellFormed
  refine (Pseudo.run_of_expand expansion).trans ((timed.append pulse s rfl).trans ?_)
  unfold Block.holdOver Block.leaveHold
  rw [hrem]
  simp [Block.enterHold, Block.idleFor, hsum, ht, servoInactive]

/-! The pseudo-instruction `STEP` in a hold -/

theorem enabled_step (c : Config) (b : Block) (increment : Bool) :
    enabled c b (ExecOp.step increment).instr = true ↔
      b.phase = .idle ∧ b.stepPend = true ∧ inc c b.dirLat = increment := by
  cases increment with
  | false => exact enabled_stepDec c b
  | true => exact enabled_stepInc c b

/-- The intermediate of the step operation of a direction (R64, R65). -/
def stepTarget (c : Config) (increment : Bool) (b : Block) : Int :=
  if increment then b.pw.toInt + c.resolution else b.pw.toInt - c.resolution

theorem effectOf_step (c : Config) (b : Block) (increment : Bool) :
    effectOf (ExecOp.step increment).instr c b = b.serveStep c (stepTarget c increment b) := by
  cases increment <;> rfl

/-- R67 -/
theorem clamp_eq_max_min {c : Config} (hlt : c.pwmMin < c.pwmMax) (t : Int) :
    clamp c t = max c.pwmMin (min c.pwmMax t) := by
  simp only [clamp]
  split_ifs <;> omega

theorem homeFlag_eq (c : Config) (v : Int) :
    homeFlag c v = if v = c.homeValue then c.homeLevel else !c.homeLevel := by
  simp only [homeFlag, lvl, beq_iff_eq]
  rfl

/-- Settles O60: the edge is latched, the hold runs to its end, the step it latched is served. -/
theorem stepInAHoldIsServedWhenTheHoldEnds : Obligations.StepInAHoldIsServedWhenTheHoldEnds := by
  intro c s increment h hp hs
  have hw := h.wellFormed
  obtain ⟨-, hlt, -⟩ := wellFormed_bounds hw
  have edge := Carries.edge hw increment s.block
  have held := carries_untilIdleLines hw (h.block.latchStep (dirLevel c increment)) hp
  have served := Carries.op (o := .step increment)
    (b := (s.block.latchStep (dirLevel c increment)).holdOver.leaveHold) hw
    ((enabled_step c _ increment).2 ⟨rfl, rfl, by simp [Block.holdOver, hs]⟩)
  have lines : stepLines c s.block increment =
      [.edge increment] ++
        (untilIdleLines c (s.block.latchStep (dirLevel c increment)) ++ [.op (.step increment)]) := by
    simp [stepLines, untilIdleLines, hs]
  have hv := toInt_toWord_clamp hw (stepTarget c increment s.block)
  refine ⟨toWord (clamp c (stepTarget c increment s.block)), by rw [hv, clamp_eq_max_min hlt]; rfl, ?_⟩
  rw [hv, ← homeFlag_eq, Pseudo.run_step, lines, edge.append (held.append served) s rfl, effectOf_step]
  simp [Block.serveStep, Block.leaveHold, Block.holdOver, Block.latchStep, stepTarget, hs, servoInactive, dirLevel]

end Sys2Proof.Machine
end

section
/-! What urgency fills in (R59, R97): the operations of `EXEC` due in a state, how many of them can follow one another,
and a stimulus trace as the full trace it stands for. -/

namespace Sys2Proof.Machine

/-! The operations due -/

theorem dueOps_eq_nil_iff (c : Config) (b : Block) : dueOps c b = [] ↔ ∀ o : ExecOp, ¬ enabled c b o.instr = true := by
  simp only [List.eq_nil_iff_forall_not_mem, mem_dueOps]

theorem forcedOp_of_dueOps_nil {c : Config} {b : Block} (h : dueOps c b = []) : forcedOp c b = none := by
  simp only [forcedOp, h]

theorem forcedOp_of_dueOps_singleton {c : Config} {b : Block} {o : ExecOp} (h : dueOps c b = [o]) :
    forcedOp c b = some o := by
  simp only [forcedOp, h]

/-- R96: in `IDLE` the requests pending are due. -/
theorem dueOps_of_idle {c : Config} {b : Block} (hp : b.phase = .idle) :
    dueOps c b = (if b.stepPend then [ExecOp.step (inc c b.dirLat)] else []) ++
      (if b.tickPend then [ExecOp.pulseStart] else []) := by
  cases hs : b.stepPend <;> cases ht : b.tickPend <;> cases hd : inc c b.dirLat <;>
    simp [dueOps, ExecOp.all, ExecOp.instr, ExecOp.step, enabled, hp, hs, ht, hd]

/-- R83: while a wait runs, only time passes. -/
theorem dueOps_of_wait {c : Config} {b : Block} (hp : b.phase = .hold) (hwait : 0 < b.wait) : dueOps c b = [] := by
  simp [dueOps, ExecOp.all, ExecOp.instr, enabled, hp, hwait.ne']

/-- The hold operation at the end of a wait (R83). -/
def holdOp (c : Config) (b : Block) : ExecOp :=
  if (c.chunk : Int) ≤ b.rem.toInt then .holdChunk else if 0 < b.rem.toInt then .holdUnit else .pulseEnd

/-- R83: at the end of a wait one hold operation is due. -/
theorem dueOps_of_hold {c : Config} {b : Block} (hchunk : 1 ≤ c.chunk) (hp : b.phase = .hold) (hwait : b.wait = 0) :
    dueOps c b = [holdOp c b] := by
  unfold holdOp
  split_ifs with hge hgt
  · have hpos : 0 < b.rem.toInt := by omega
    simp [dueOps, ExecOp.all, ExecOp.instr, enabled, hp, hwait, hge, hpos]
  · simp [dueOps, ExecOp.all, ExecOp.instr, enabled, hp, hwait, hge, hgt, not_le.1 hge]
  · simp [dueOps, ExecOp.all, ExecOp.instr, enabled, hp, hwait, hge, hgt, not_lt.1 hgt]

/-- R97: where time may pass, nothing is due. -/
theorem dueOps_of_timeOp {c : Config} {b : Block} (he : enabled c b (timeOp b) = true) : dueOps c b = [] := by
  cases hp : b.phase with
  | idle =>
    rw [timeOp_of_idle hp, enabled_timeIdle] at he
    obtain ⟨-, ht, hs⟩ := he
    simp [dueOps_of_idle hp, ht, hs]
  | hold =>
    rw [timeOp_of_hold hp, enabled_timeWait] at he
    exact dueOps_of_wait hp he.2

/-! How many operations that urgency determines can follow one another -/

/-- How many such operations the requests pending in `IDLE` make: a step is one, a tick is `PULSE_START` and the first
hold operation, and with both pending the order is open. -/
def requestBudget (b : Block) : Nat :=
  match b.stepPend, b.tickPend with
  | false, false => 0
  | true, false => 1
  | false, true => 2
  | true, true => 0

/-- How many such operations can follow one another from a block. -/
def execBudget (b : Block) : Nat :=
  match b.phase with
  | .idle => requestBudget b
  | .hold => if b.wait = 0 then requestBudget b + 1 else 0

theorem execBudget_le (b : Block) : execBudget b ≤ forcedBound := by
  have hreq : requestBudget b ≤ 2 := by
    unfold requestBudget; split <;> omega
  unfold execBudget forcedBound
  split
  · omega
  · split <;> omega

theorem dueOps_of_forcedOp {c : Config} {b : Block} {o : ExecOp} (h : forcedOp c b = some o) : dueOps c b = [o] := by
  unfold forcedOp at h
  split at h
  next o' ho' => rw [ho', Option.some.inj h]
  next => cases h

/-- Everything that urgency can determine. -/
theorem forcedOp_cases {c : Config} {b : Block} {o : ExecOp} (h : forcedOp c b = some o) :
    (b.phase = .idle ∧ b.stepPend = true ∧ b.tickPend = false ∧ o = .step (inc c b.dirLat)) ∨
    (b.phase = .idle ∧ b.stepPend = false ∧ b.tickPend = true ∧ o = .pulseStart) ∨
    (b.phase = .hold ∧ b.wait = 0 ∧ o ∈ [ExecOp.holdChunk, .holdUnit, .pulseEnd]) := by
  have hdue := dueOps_of_forcedOp h
  have he := enabled_of_forcedOp h
  cases hp : b.phase with
  | idle =>
    rw [dueOps_of_idle hp] at hdue
    cases hs : b.stepPend <;> cases ht : b.tickPend <;> simp [hs, ht] at hdue
    · exact .inr (.inl ⟨rfl, rfl, rfl, hdue.symm⟩)
    · exact .inl ⟨rfl, rfl, rfl, hdue.symm⟩
  | hold =>
    have hwait : b.wait = 0 := by
      by_contra hne
      rw [dueOps_of_wait hp (Nat.pos_of_ne_zero hne)] at hdue
      cases hdue
    refine .inr (.inr ⟨rfl, hwait, ?_⟩)
    cases o with
    | stepDec | stepInc | pulseStart => simp [ExecOp.instr, enabled, hp] at he
    | holdChunk | holdUnit | pulseEnd => simp

theorem execBudget_pos {c : Config} {b : Block} {o : ExecOp} (h : forcedOp c b = some o) : 0 < execBudget b := by
  rcases forcedOp_cases h with ⟨hp, hs, ht, -⟩ | ⟨hp, hs, ht, -⟩ | ⟨hp, hwait, -⟩
  · simp [execBudget, requestBudget, hp, hs, ht]
  · simp [execBudget, requestBudget, hp, hs, ht]
  · simp [execBudget, hp, hwait]

/-- Each operation that urgency determines uses up one. -/
theorem execBudget_effectOf_lt {c : Config} (hchunk : 1 ≤ c.chunk) {b : Block} {o : ExecOp}
    (h : forcedOp c b = some o) : execBudget (effectOf o.instr c b) < execBudget b := by
  have hpos := execBudget_pos h
  rcases forcedOp_cases h with ⟨hp, hs, ht, rfl⟩ | ⟨hp, hs, ht, rfl⟩ | ⟨hp, hwait, hmem⟩
  · simp [effectOf_step, execBudget, requestBudget, hp, hs, ht]
  · simp [effectOf, ExecOp.instr, execBudget, requestBudget, hp, hs, ht]
  · simp only [List.mem_cons, List.not_mem_nil, or_false] at hmem
    rcases hmem with rfl | rfl | rfl
    · have hzero : execBudget (effectOf (ExecOp.holdChunk).instr c b) = 0 := by
        simp [effectOf, ExecOp.instr, execBudget, hp, Nat.ne_of_gt hchunk]
      rwa [hzero]
    · have hzero : execBudget (effectOf (ExecOp.holdUnit).instr c b) = 0 := by
        simp [effectOf, ExecOp.instr, execBudget, hp]
      rwa [hzero]
    · simp [effectOf, ExecOp.instr, execBudget, requestBudget, hp, hwait]

/-! One operation, and the operations filled in -/

theorem Taken.andThen_of_next (os : List Instr) (t : State) (f : State → Taken) :
    Taken.andThen ⟨os, .next t⟩ f = ⟨os ++ (f t).ops, (f t).outcome⟩ := rfl

theorem Taken.eq_of_outcome {r : Taken} {o : Host.Outcome State Fault Refusal} (h : r.outcome = o) :
    r = ⟨r.ops, o⟩ := by rw [← h]

theorem Taken.nil_andThen (t : State) (f : State → Taken) : Taken.andThen ⟨[], .next t⟩ f = f t := rfl

theorem takeOp_of_enabled {c : Config} {i : Instr} {s : State} (hw : c.WellFormed)
    (he : enabled c s.block i = true) : takeOp c i s = ⟨[i], .next { s with block := effectOf i c s.block }⟩ :=
  (takeOp_eq_next_iff c i s _ _).2 ⟨execUnder_of_enabled hw he, rfl⟩

section Fill

variable {c : Config} {stop : Block → Bool} {s : State}

theorem fillForced_of_stop (h : stop s.block = true) (n : Nat) : fillForced c stop n s = ⟨[], .next s⟩ := by
  cases n with
  | zero => rfl
  | succ n => simp only [fillForced, h, if_true]

theorem fillForced_of_none (h : forcedOp c s.block = none) (n : Nat) : fillForced c stop n s = ⟨[], .next s⟩ := by
  cases n with
  | zero => rfl
  | succ n => simp only [fillForced, h, ite_self]

theorem fillForced_succ_of_forcedOp (hstop : stop s.block = false) {o : ExecOp} (h : forcedOp c s.block = some o)
    (n : Nat) : fillForced c stop (n + 1) s = (takeOp c o.instr s).andThen (fillForced c stop n) := by
  simp only [fillForced, hstop, h, Bool.false_eq_true, if_false]

theorem settle_of_stop (h : stop s.block = true) : settle c stop s = ⟨[], .next s⟩ := fillForced_of_stop h forcedBound

theorem settle_of_none (h : forcedOp c s.block = none) : settle c stop s = ⟨[], .next s⟩ :=
  fillForced_of_none h forcedBound

/-- A bound that the budget meets is never reached. -/
theorem fillForced_bound (hw : c.WellFormed) {n : Nat} (hn : execBudget s.block ≤ n) :
    fillForced c stop (n + 1) s = fillForced c stop n s := by
  obtain ⟨-, -, -, -, -, -, hchunk, -⟩ := wellFormed_bounds hw
  induction n generalizing s with
  | zero =>
    have hnone : forcedOp c s.block = none := by
      by_contra hne
      obtain ⟨o, ho⟩ := Option.ne_none_iff_exists'.1 hne
      exact absurd (execBudget_pos ho) (by omega)
    rw [fillForced_of_none hnone, fillForced_of_none hnone]
  | succ n ih =>
    by_cases hstop : stop s.block = true
    · rw [fillForced_of_stop hstop, fillForced_of_stop hstop]
    rw [Bool.not_eq_true] at hstop
    cases ho : forcedOp c s.block with
    | none => rw [fillForced_of_none ho, fillForced_of_none ho]
    | some o =>
      have hlt := execBudget_effectOf_lt hchunk ho
      rw [fillForced_succ_of_forcedOp hstop ho, fillForced_succ_of_forcedOp hstop ho,
        takeOp_of_enabled hw (enabled_of_forcedOp ho), Taken.andThen_of_next, Taken.andThen_of_next,
        ih (Nat.le_of_lt_succ (hlt.trans_le hn))]

/-- `EXEC` takes the operation that urgency determines, and goes on. -/
theorem settle_of_forcedOp (hw : c.WellFormed) (hstop : stop s.block = false) {o : ExecOp}
    (h : forcedOp c s.block = some o) : settle c stop s = (takeOp c o.instr s).andThen (settle c stop) := by
  obtain ⟨-, -, -, -, -, -, hchunk, -⟩ := wellFormed_bounds hw
  have hbudget : execBudget (effectOf o.instr c s.block) ≤ 2 := by
    have hlt := execBudget_effectOf_lt hchunk h
    have hle := execBudget_le s.block
    unfold forcedBound at hle
    omega
  calc settle c stop s
      = (takeOp c o.instr s).andThen (fillForced c stop 2) := fillForced_succ_of_forcedOp hstop h 2
    _ = (takeOp c o.instr s).andThen (settle c stop) := by
        rw [takeOp_of_enabled hw (enabled_of_forcedOp h), Taken.andThen_of_next, Taken.andThen_of_next,
          ← fillForced_bound hw hbudget]
        rfl

/-- Under a well-formed configuration nothing that is filled in fails, and it changes the block alone. -/
theorem fillForced_answers (hw : c.WellFormed) (stop : Block → Bool) (n : Nat) (s : State) :
    ∃ os b, fillForced c stop n s = ⟨os, .next { s with block := b }⟩ := by
  induction n generalizing s with
  | zero => exact ⟨[], s.block, rfl⟩
  | succ n ih =>
    by_cases hstop : stop s.block = true
    · exact ⟨[], s.block, fillForced_of_stop hstop _⟩
    rw [Bool.not_eq_true] at hstop
    cases ho : forcedOp c s.block with
    | none => exact ⟨[], s.block, fillForced_of_none ho _⟩
    | some o =>
      obtain ⟨os, b, hrest⟩ := ih { s with block := effectOf o.instr c s.block }
      refine ⟨[o.instr] ++ os, b, ?_⟩
      rw [fillForced_succ_of_forcedOp hstop ho, takeOp_of_enabled hw (enabled_of_forcedOp ho), Taken.andThen_of_next,
        hrest]

/-- R97: `EXEC` acts until urgency determines nothing more: the bound is enough. -/
theorem forcedOp_of_fillForced {n : Nat} (hn : execBudget s.block ≤ n) {t : State}
    (h : (fillForced c (fun _ => false) n s).outcome = .next t) : forcedOp c t.block = none := by
  induction n generalizing s with
  | zero =>
    cases h
    by_contra hne
    obtain ⟨o, ho⟩ := Option.ne_none_iff_exists'.1 hne
    exact absurd (execBudget_pos ho) (by omega)
  | succ n ih =>
    cases ho : forcedOp c s.block with
    | none =>
      rw [fillForced_of_none ho] at h
      cases h
      exact ho
    | some o =>
      rw [fillForced_succ_of_forcedOp rfl ho] at h
      obtain ⟨u, os, hu, hrest, -⟩ := (Taken.andThen_eq_next_iff _ _ _ t).1 (Taken.eq_of_outcome h)
      obtain ⟨hexec, -⟩ := (takeOp_eq_next_iff c _ s u _).1 (Taken.eq_of_outcome hu)
      obtain ⟨hw, -, rfl⟩ := (execUnder_eq_next_iff c _ s u).1 hexec
      obtain ⟨-, -, -, -, -, -, hchunk, -⟩ := wellFormed_bounds hw
      have hlt := execBudget_effectOf_lt hchunk ho
      exact ih (Nat.le_of_lt_succ (hlt.trans_le hn)) (by rw [hrest])

theorem forcedOp_of_settle {t : State} (h : (settle c (fun _ => false) s).outcome = .next t) :
    forcedOp c t.block = none :=
  forcedOp_of_fillForced (execBudget_le s.block) h

end Fill

/-! A stimulus trace stands for a full trace -/

/-- What a run has taken, where it ends in a state, is a legal run with just the stimulus listed. -/
def Taken.StandsFor (c : Config) (listed : List (Option Instr)) (s : State) (r : Taken) : Prop :=
  ∀ t, r.outcome = .next t → runOperations c r.ops s = .next t ∧ r.ops.flatMap listedInstr = listed

namespace Taken.StandsFor

variable {c : Config} {s : State}

theorem nothing (c : Config) (s : State) : Taken.StandsFor c [] s ⟨[], .next s⟩ := by
  intro t ht
  exact ⟨ht, rfl⟩

theorem andThen {r : Taken} {f : State → Taken} {listed listed' : List (Option Instr)}
    (h : r.StandsFor c listed s) (h' : ∀ t, (f t).StandsFor c listed' t) :
    (r.andThen f).StandsFor c (listed ++ listed') s := by
  intro u hu
  obtain ⟨t, os, ht, hrest, hops⟩ := (Taken.andThen_eq_next_iff r f _ u).1 (Taken.eq_of_outcome hu)
  obtain ⟨hrun, hlisted⟩ := h t ht
  obtain ⟨hrun', hlisted'⟩ := h' t u (by rw [hrest])
  rw [hrest] at hrun' hlisted'
  rw [hops, List.flatMap_append, hlisted, hlisted', runOperations_append c _ _ hrun]
  exact ⟨hrun', rfl⟩

theorem of_takeOp (c : Config) (i : Instr) (s : State) : (takeOp c i s).StandsFor c (listedInstr i) s := by
  intro t ht
  obtain ⟨hexec, hops⟩ := (takeOp_eq_next_iff c i s t _).1 (Taken.eq_of_outcome ht)
  rw [hops]
  refine ⟨by simp only [runOperations, hexec], by simp⟩

theorem of_fillForced (c : Config) (stop : Block → Bool) (n : Nat) (s : State) :
    (fillForced c stop n s).StandsFor c [] s := by
  induction n generalizing s with
  | zero => exact nothing c s
  | succ n ih =>
    by_cases hstop : stop s.block = true
    · rw [fillForced_of_stop hstop]; exact nothing c s
    rw [Bool.not_eq_true] at hstop
    cases ho : forcedOp c s.block with
    | none => rw [fillForced_of_none ho]; exact nothing c s
    | some o =>
      have first := of_takeOp c o.instr s
      rw [listedInstr_instr] at first
      rw [fillForced_succ_of_forcedOp hstop ho]
      exact first.andThen ih

theorem of_settle (c : Config) (stop : Block → Bool) (s : State) : (settle c stop s).StandsFor c [] s :=
  of_fillForced c stop forcedBound s

theorem of_passUnit (c : Config) (s : State) : (passUnit c s).StandsFor c [none] s := by
  refine (of_settle c (fun _ => false) s).andThen fun t => ?_
  split_ifs with hchoice
  · nofun
  · have htime := of_takeOp c (timeOp t.block) t
    cases hp : t.block.phase with
    | idle => rw [timeOp_of_idle hp] at htime ⊢; exact htime
    | hold => rw [timeOp_of_hold hp] at htime ⊢; exact htime

theorem of_passUnits (c : Config) (n : Nat) (s : State) : (passUnits c n s).StandsFor c (List.replicate n none) s := by
  induction n generalizing s with
  | zero => exact nothing c s
  | succ n ih => exact (of_passUnit c s).andThen ih

theorem of_fill (c : Config) (written : Option ExecOp) (l : TraceLine) (s : State) :
    (l.fill c written s).StandsFor c (l.listed c) s := by
  cases l with
  | reset => exact of_takeOp c .reset s
  | edge increment =>
    refine (of_settle c (edgeIsDue c written) s).andThen fun t => ?_
    have hlisted : listedInstr (edgeOp c increment) = [some (edgeOp c increment)] := by
      simp only [listedInstr, edgeOp_agent]
    rw [← hlisted]
    exact of_takeOp c (edgeOp c increment) t
  | time n pos => exact of_passUnits c n s
  | op o =>
    refine (of_settle c (writtenIsDue c (some o)) s).andThen fun t => ?_
    rw [← listedInstr_instr o]
    exact of_takeOp c o.instr t

theorem of_runStimulus (c : Config) (ls : List TraceLine) (s : State) :
    (runStimulus c ls s).StandsFor c (ls.flatMap (·.listed c)) s := by
  induction ls generalizing s with
  | nil => exact of_settle c (fun _ => false) s
  | cons l ls ih =>
    rw [List.flatMap_cons]
    exact (of_fill c (nextWritten ls) l s).andThen ih

end Taken.StandsFor

/-- The last thing of a stimulus trace's run is that `EXEC` acts. -/
theorem forcedOp_of_runStimulus {c : Config} {ls : List TraceLine} {s t : State}
    (h : (runStimulus c ls s).outcome = .next t) : forcedOp c t.block = none := by
  induction ls generalizing s with
  | nil => exact forcedOp_of_settle h
  | cons l ls ih =>
    obtain ⟨u, os, -, hrest, -⟩ := (Taken.andThen_eq_next_iff _ _ _ t).1 (Taken.eq_of_outcome h)
    exact ih (s := u) (by rw [hrest])

/-- Settles O57: each part of the run is a legal run with the stimulus of its line, and the last part fills in what
urgency determines after the last line. -/
theorem filledStimulusTraceIsAFullTrace : Obligations.FilledStimulusTraceIsAFullTrace := by
  intro c ls s t os h
  obtain ⟨hrun, hlisted⟩ := Taken.StandsFor.of_runStimulus c ls s t (by rw [h])
  rw [h] at hrun hlisted
  exact ⟨hrun, hlisted, forcedOp_of_runStimulus (by rw [h])⟩

end Sys2Proof.Machine
end

section
/-! Full traces run as stimulus traces (R59): the same end state, and where no `RESET` directly follows an edge the same
operations. -/

namespace Sys2Proof.Machine

/-! The lines of a full trace that are filled in with nothing -/

theorem passUnit_of_timeOp {c : Config} {s : State} (he : enabled c s.block (timeOp s.block) = true) :
    passUnit c s = takeOp c (timeOp s.block) s := by
  have hdue := dueOps_of_timeOp he
  rw [passUnit, settle_of_none (forcedOp_of_dueOps_nil hdue), Taken.nil_andThen, hdue]
  rfl

theorem writtenInstr_timeOp (b : Block) : writtenInstr (timeOp b) = none := by
  cases hp : b.phase with
  | idle => rw [timeOp_of_idle hp]; rfl
  | hold => rw [timeOp_of_hold hp]; rfl

theorem writtenInstr_edgeOp (c : Config) (increment : Bool) :
    writtenInstr (edgeOp c increment) = some (edgeOp c increment) := by
  simp [writtenInstr, Instr.isTime]

theorem writtenInstr_instr (o : ExecOp) : writtenInstr o.instr = some o.instr := by simp [writtenInstr]

theorem passUnits_of_runTime {c : Config} {n : Nat} {s t : State} (h : runTime c n s = .next t) :
    ∃ os, passUnits c n s = ⟨os, .next t⟩ ∧ os.map writtenInstr = List.replicate n none := by
  induction n generalizing s with
  | zero => cases h; exact ⟨[], rfl, rfl⟩
  | succ n ih =>
    obtain ⟨u, hsu, hut⟩ := runTime_succ_eq_next h
    obtain ⟨-, he, -⟩ := (execUnder_eq_next_iff c _ s u).1 hsu
    obtain ⟨os, hrest, hops⟩ := ih hut
    refine ⟨[timeOp s.block] ++ os, ?_, ?_⟩
    · rw [passUnits, passUnit_of_timeOp he, (takeOp_eq_next_iff c _ s u _).2 ⟨hsu, rfl⟩, Taken.andThen_of_next, hrest]
    · rw [List.map_append, hops, List.map_singleton, writtenInstr_timeOp]
      rfl

/-- A line of a full trace, run as a line of a stimulus trace, takes what it writes out; an edge does where nothing is
filled in before it. -/
theorem fill_of_run {c : Config} {written : Option ExecOp} {l : TraceLine} {s t : State} (h : l.run c s = .next t)
    (hedge : ∀ increment, l = .edge increment → settle c (edgeIsDue c written) s = ⟨[], .next s⟩) :
    ∃ os, l.fill c written s = ⟨os, .next t⟩ ∧ os.map writtenInstr = l.written c := by
  cases l with
  | reset => exact ⟨[.reset], (takeOp_eq_next_iff c _ s t _).2 ⟨h, rfl⟩, rfl⟩
  | edge increment =>
    refine ⟨[edgeOp c increment], ?_, by rw [List.map_singleton, writtenInstr_edgeOp]; rfl⟩
    rw [TraceLine.fill, hedge increment rfl, Taken.nil_andThen]
    exact (takeOp_eq_next_iff c _ s t _).2 ⟨h, rfl⟩
  | time n pos => exact passUnits_of_runTime h
  | op o =>
    obtain ⟨-, he, -⟩ := (execUnder_eq_next_iff c o.instr s t).1 h
    refine ⟨[o.instr], ?_, by rw [List.map_singleton, writtenInstr_instr]; rfl⟩
    rw [TraceLine.fill, settle_of_stop (show writtenIsDue c (some o) s.block = true from he), Taken.nil_andThen]
    exact (takeOp_eq_next_iff c _ s t _).2 ⟨h, rfl⟩

/-! Edges before anything but a `RESET` -/

/-- Whether only edges stand before the next `RESET`. -/
def resetNext : List TraceLine → Bool
  | [] => false
  | .reset :: _ => true
  | .edge _ :: ls => resetNext ls
  | .time _ _ :: _ => false
  | .op _ :: _ => false

/-- R101: a further edge changes nothing. -/
theorem latchStep_of_pending {b : Block} (hs : b.stepPend = true) (d : Level) : b.latchStep d = b := by
  unfold Block.latchStep
  rw [if_pos hs, ← hs]

/-- An edge disables nothing of `EXEC`, and enables a step operation at most. -/
theorem enabled_latchStep {c : Config} {b : Block} (d : Level) {o : ExecOp} (he : enabled c b o.instr = true) :
    enabled c (b.latchStep d) o.instr = true := by
  cases hs : b.stepPend with
  | true => rwa [latchStep_of_pending hs]
  | false =>
    cases o with
    | stepDec | stepInc => simp [ExecOp.instr, enabled, hs] at he
    | pulseStart | holdChunk | holdUnit | pulseEnd => exact he

theorem enabled_of_enabled_latchStep {c : Config} {b : Block} {d : Level} {o : ExecOp}
    (he : enabled c (b.latchStep d) o.instr = true) :
    enabled c b o.instr = true ∨ (b.phase = .idle ∧ b.stepPend = false) := by
  cases hs : b.stepPend with
  | true => rw [latchStep_of_pending hs] at he; exact .inl he
  | false =>
    cases o with
    | stepDec => exact .inr ⟨((enabled_stepDec c _).1 he).1, rfl⟩
    | stepInc => exact .inr ⟨((enabled_stepInc c _).1 he).1, rfl⟩
    | pulseStart | holdChunk | holdUnit | pulseEnd => exact .inl he

/-- After an edge of a full trace the operation written next is due, or none is. -/
theorem writtenIsDue_or_dueOps_nil {c : Config} {ls : List TraceLine} {s t : State} (h : runTrace c ls s = .next t)
    (hdue : dueOps c t.block = []) (hls : resetNext ls = false) (hs : s.block.stepPend = true) :
    writtenIsDue c (nextWritten ls) s.block = true ∨ dueOps c s.block = [] := by
  induction ls generalizing s with
  | nil => cases h; exact .inr hdue
  | cons l ls ih =>
    obtain ⟨u, hsu, hut⟩ := runTrace_cons_eq_next h
    cases l with
    | reset => cases hls
    | edge increment =>
      obtain ⟨-, -, rfl⟩ := (execUnder_eq_next_iff c _ s u).1 hsu
      rw [effectOf_edgeOp, latchStep_of_pending hs] at hut
      exact ih hut hls hs
    | time n pos =>
      obtain ⟨m, rfl⟩ := Nat.exists_eq_add_of_le' pos
      obtain ⟨v, hsv, -⟩ := runTime_succ_eq_next hsu
      obtain ⟨-, he, -⟩ := (execUnder_eq_next_iff c _ s v).1 hsv
      exact .inr (dueOps_of_timeOp he)
    | op o =>
      obtain ⟨-, he, -⟩ := (execUnder_eq_next_iff c o.instr s u).1 hsu
      exact .inl he

/-- Nothing is filled in before an edge of a full trace that no `RESET` follows. -/
theorem settle_of_edge {c : Config} {increment : Bool} {ls : List TraceLine} {s t : State}
    (h : runTrace c (.edge increment :: ls) s = .next t) (hdue : dueOps c t.block = []) (hls : resetNext ls = false) :
    settle c (edgeIsDue c (nextWritten ls)) s = ⟨[], .next s⟩ := by
  obtain ⟨u, hsu, hut⟩ := runTrace_cons_eq_next h
  obtain ⟨-, -, rfl⟩ := (execUnder_eq_next_iff c _ s u).1 hsu
  rw [effectOf_edgeOp] at hut
  by_cases hstop : edgeIsDue c (nextWritten ls) s.block = true
  · exact settle_of_stop hstop
  refine settle_of_none (forcedOp_of_dueOps_nil ?_)
  rw [edgeIsDue, Bool.or_eq_true, not_or, Bool.and_eq_true, beq_iff_eq, not_and, Bool.not_eq_true] at hstop
  obtain ⟨hnotdue, hnotick⟩ := hstop
  rcases writtenIsDue_or_dueOps_nil hut hdue hls rfl with hwritten | hnil
  · cases hnext : nextWritten ls with
    | none => rw [hnext] at hwritten; cases hwritten
    | some o =>
      rw [hnext] at hwritten hnotdue
      rcases enabled_of_enabled_latchStep hwritten with he | ⟨hp, hs⟩
      · exact absurd he (Bool.eq_false_iff.1 hnotdue)
      · simp [dueOps_of_idle hp, hs, hnotick hp]
  · rw [dueOps_eq_nil_iff] at hnil ⊢
    exact fun o he => hnil o (enabled_latchStep _ he)

/-! Edges before a `RESET` -/

theorem fill_edge_answers {c : Config} (hw : c.WellFormed) (written : Option ExecOp) (increment : Bool) (s : State) :
    ∃ os b, (TraceLine.edge increment).fill c written s = ⟨os, .next { s with block := b }⟩ := by
  obtain ⟨os, b, hsettle⟩ := fillForced_answers hw (edgeIsDue c written) forcedBound s
  refine ⟨os ++ [edgeOp c increment], effectOf (edgeOp c increment) c b, ?_⟩
  rw [TraceLine.fill, settle, hsettle, Taken.andThen_of_next, takeOp_of_enabled hw (enabled_edgeOp c _ increment)]

/-- R112: whatever the block was before, the `RESET` undoes it. -/
theorem runStimulus_of_resetNext {c : Config} (hw : c.WellFormed) {ls : List TraceLine} (hls : resetNext ls = true)
    (s : State) (b : Block) :
    (runStimulus c ls { s with block := b }).outcome = (runStimulus c ls s).outcome := by
  induction ls generalizing s b with
  | nil => cases hls
  | cons l ls ih =>
    cases l with
    | reset =>
      simp only [runStimulus, TraceLine.fill, takeOp_of_enabled hw (enabled_reset c _), Taken.andThen_of_next]
      rfl
    | edge increment =>
      obtain ⟨os, b', hfill⟩ := fill_edge_answers hw (nextWritten ls) increment s
      obtain ⟨os', b'', hfill'⟩ := fill_edge_answers hw (nextWritten ls) increment { s with block := b }
      simp only [runStimulus, hfill, hfill', Taken.andThen_of_next]
      exact (ih hls s b'').trans (ih hls s b').symm
    | time n pos => cases hls
    | op o => cases hls

/-! A full trace as a stimulus trace -/

/-- A `RESET` line directly after an `EDGE` line. -/
def EdgeThenReset (ls : List TraceLine) : Prop :=
  ∃ (before after : List TraceLine) (increment : Bool), ls = before ++ .edge increment :: .reset :: after

theorem EdgeThenReset.cons {ls : List TraceLine} (h : EdgeThenReset ls) (l : TraceLine) : EdgeThenReset (l :: ls) := by
  obtain ⟨before, after, increment, rfl⟩ := h
  exact ⟨l :: before, after, increment, rfl⟩

theorem edgeThenReset_of_resetNext {ls : List TraceLine} (hls : resetNext ls = true) (increment : Bool) :
    EdgeThenReset (.edge increment :: ls) := by
  induction ls generalizing increment with
  | nil => cases hls
  | cons l ls ih =>
    cases l with
    | reset => exact ⟨[], ls, increment, rfl⟩
    | edge increment' => exact (ih hls increment').cons (.edge increment)
    | time n pos => cases hls
    | op o => cases hls

theorem runStimulus_of_runTrace {c : Config} {ls : List TraceLine} {s t : State} (h : runTrace c ls s = .next t)
    (hdue : dueOps c t.block = []) :
    (runStimulus c ls s).outcome = .next t ∧
      (¬ EdgeThenReset ls → (runStimulus c ls s).ops.map writtenInstr = ls.flatMap (·.written c)) := by
  induction ls generalizing s with
  | nil =>
    cases h
    rw [runStimulus, settle_of_none (forcedOp_of_dueOps_nil hdue)]
    exact ⟨rfl, fun _ => rfl⟩
  | cons l ls ih =>
    obtain ⟨u, hsu, hut⟩ := runTrace_cons_eq_next h
    obtain ⟨houtcome, hops⟩ := ih hut
    by_cases hreset : (∃ increment, l = .edge increment) ∧ resetNext ls = true
    · obtain ⟨⟨increment, rfl⟩, hls⟩ := hreset
      obtain ⟨hw, -, rfl⟩ := (execUnder_eq_next_iff c _ s u).1 hsu
      obtain ⟨os, b, hfill⟩ := fill_edge_answers hw (nextWritten ls) increment s
      refine ⟨?_, fun hno => absurd (edgeThenReset_of_resetNext hls increment) hno⟩
      rw [runStimulus, hfill, Taken.andThen_of_next]
      exact (runStimulus_of_resetNext hw hls s b).trans
        ((runStimulus_of_resetNext hw hls s _).symm.trans houtcome)
    · obtain ⟨os, hfill, hwritten⟩ := fill_of_run (written := nextWritten ls) hsu fun increment hl => by
        subst hl
        exact settle_of_edge h hdue (by simpa using hreset)
      rw [runStimulus, hfill, Taken.andThen_of_next]
      refine ⟨houtcome, fun hno => ?_⟩
      rw [List.map_append, hwritten, hops fun hls => hno (hls.cons l), List.flatMap_cons]

/-- Settles O58: by induction on the lines. -/
theorem fullTraceEndsInTheSameState : Obligations.FullTraceEndsInTheSameState :=
  fun _ _ _ _ h hdue => runStimulus_of_runTrace h hdue

end Sys2Proof.Machine
end

section
/-! Stimulus traces (R59, R97): edges served at once, a line of time that is a whole pulse, a choice not written out. -/

namespace Sys2Proof.Machine

/-! How a run ends, whatever `EXEC` has already taken of it -/

theorem Taken.andThen_outcome_congr {r r' : Taken} (h : r.outcome = r'.outcome) (f : State → Taken) :
    (r.andThen f).outcome = (r'.andThen f).outcome := by
  obtain ⟨os, o⟩ := r
  obtain ⟨os', o'⟩ := r'
  obtain rfl : o = o' := h
  cases o with
  | next t => rfl
  | fault r => rfl
  | refused r => rfl

/-- A run that begins with what urgency determines ends as it does from the state after the first such operation. -/
theorem settle_outcome_of_forcedOp {c : Config} (hw : c.WellFormed) {stop : Block → Bool} {s : State}
    (hstop : stop s.block = false) {o : ExecOp} (h : forcedOp c s.block = some o) :
    (settle c stop s).outcome = (settle c stop { s with block := effectOf o.instr c s.block }).outcome := by
  rw [settle_of_forcedOp hw hstop h, takeOp_of_enabled hw (enabled_of_forcedOp h), Taken.andThen_of_next]

/-! Edges presented one after the other in `IDLE` -/

theorem nextWritten_edges (n : Nat) (increment : Bool) : nextWritten (List.replicate n (.edge increment)) = none := by
  induction n with
  | zero => rfl
  | succ n ih => exact ih

/-- A pending step is served before the next edge and at the end, unless a tick is pending too. -/
theorem runStimulus_edges_of_forcedOp {c : Config} (hw : c.WellFormed) {s : State} (ht : s.block.tickPend = false)
    {o : ExecOp} (h : forcedOp c s.block = some o) (n : Nat) (increment : Bool) :
    (runStimulus c (List.replicate n (.edge increment)) s).outcome =
      (runStimulus c (List.replicate n (.edge increment)) { s with block := effectOf o.instr c s.block }).outcome := by
  cases n with
  | zero => exact settle_outcome_of_forcedOp hw rfl h
  | succ n =>
    have hstop : edgeIsDue c none s.block = false := by simp [edgeIsDue, writtenIsDue, ht]
    rw [List.replicate_succ, runStimulus, runStimulus, nextWritten_edges]
    refine Taken.andThen_outcome_congr (Taken.andThen_outcome_congr ?_ _) _
    exact settle_outcome_of_forcedOp hw hstop h

/-- `PW` after `n` steps of a direction (R76). -/
def travelled (c : Config) (increment : Bool) (n : Nat) (pw : Int) : Int :=
  if increment then min c.pwmMax (pw + n * c.resolution) else max c.pwmMin (pw - n * c.resolution)

theorem travelled_zero {c : Config} {pw : Int} (lo : c.pwmMin ≤ pw) (hi : pw ≤ c.pwmMax) (increment : Bool) :
    travelled c increment 0 pw = pw := by
  cases increment <;> simp [travelled, lo, hi]

/-- R67, R72: one step and `n` more. -/
theorem travelled_clamp {c : Config} (hw : c.WellFormed) {b : Block} (lo : c.pwmMin ≤ b.pw.toInt)
    (hi : b.pw.toInt ≤ c.pwmMax) (increment : Bool) (n : Nat) :
    travelled c increment n (clamp c (stepTarget c increment b)) = travelled c increment (n + 1) b.pw.toInt := by
  obtain ⟨hres, hlt, -⟩ := wellFormed_bounds hw
  have hpos : 0 ≤ (n : Int) * c.resolution := by positivity
  have hsucc : ((n + 1 : Nat) : Int) * c.resolution = n * c.resolution + c.resolution := by push_cast; ring
  rw [clamp_eq_max_min hlt]
  cases increment with
  | false => simp only [travelled, stepTarget, Bool.false_eq_true, if_false, hsucc]; omega
  | true => simp only [travelled, stepTarget, if_true, hsucc]; omega

/-- R96, R97: each edge's request is served before the next edge. -/
theorem runStimulus_edges {c : Config} (hw : c.WellFormed) (increment : Bool) (n : Nat) {s : State}
    (hp : s.block.phase = .idle) (hs : s.block.stepPend = false) (ht : s.block.tickPend = false)
    (lo : c.pwmMin ≤ s.block.pw.toInt) (hi : s.block.pw.toInt ≤ c.pwmMax) :
    ∃ t, (runStimulus c (List.replicate n (.edge increment)) s).outcome = .next t ∧
      t.block.pw.toInt = travelled c increment n s.block.pw.toInt := by
  have hdue : dueOps c s.block = [] := by simp [dueOps_of_idle hp, hs, ht]
  induction n generalizing s with
  | zero =>
    refine ⟨s, ?_, (travelled_zero lo hi increment).symm⟩
    rw [List.replicate_zero, runStimulus, settle_of_none (forcedOp_of_dueOps_nil hdue)]
  | succ n ih =>
    obtain ⟨-, hlt, -⟩ := wellFormed_bounds hw
    have hforced : forcedOp c (s.block.latchStep (dirLevel c increment)) = some (.step increment) :=
      forcedOp_of_dueOps_singleton (by simp [dueOps_of_idle, hp, hs, ht])
    have hpw := toInt_toWord_clamp hw (stepTarget c increment s.block)
    obtain ⟨t, hrun, htravel⟩ := ih
      (s := { s with block := (s.block.latchStep (dirLevel c increment)).serveStep c (stepTarget c increment s.block) })
      hp rfl ht (by rw [Block.serveStep_pw, hpw]; exact clamp_ge_min hlt _)
      (by rw [Block.serveStep_pw, hpw]; exact clamp_le_max hlt _) (by simp [dueOps_of_idle, hp, ht])
    refine ⟨t, ?_, ?_⟩
    · rw [List.replicate_succ, runStimulus, TraceLine.fill, settle_of_none (forcedOp_of_dueOps_nil hdue),
        Taken.nil_andThen, takeOp_of_enabled hw (enabled_edgeOp c s.block increment), effectOf_edgeOp,
        Taken.andThen_of_next]
      refine (runStimulus_edges_of_forcedOp (s := { s with block := s.block.latchStep (dirLevel c increment) })
        hw ht hforced n increment).trans ?_
      rw [effectOf_step]
      exact hrun
    · rw [htravel, Block.serveStep_pw, hpw, travelled_clamp hw lo hi]

/-! A line of time that is a whole pulse -/

theorem passUnits_succ_of_forcedOp {c : Config} (hw : c.WellFormed) {s : State} {o : ExecOp}
    (h : forcedOp c s.block = some o) (n : Nat) :
    (passUnits c (n + 1) s).outcome =
      (passUnits c (n + 1) { s with block := effectOf o.instr c s.block }).outcome :=
  Taken.andThen_outcome_congr (Taken.andThen_outcome_congr (settle_outcome_of_forcedOp hw rfl h) _) _

theorem holdOver_elapse {c : Config} {b : Block} (hp : b.phase = .hold) (hwait : 0 < b.wait)
    (ht : b.tcnt + 1 < c.period) : (b.elapse c).holdOver = b.holdOver := by
  have hsum : b.tcnt + 1 + (b.wait - 1) = b.tcnt + b.wait := by omega
  simp [Block.holdOver, Block.elapse, hp, ht.ne, hsum]

theorem holdOver_startWait {b : Block} (hwait : b.wait = 0) {k : Nat} (hk : (k : Int) ≤ b.rem.toInt) :
    (b.startWait k).holdOver = b.holdOver := by
  have hrem : (b.startWait k).rem.toInt = b.rem.toInt - k := toInt_rem_heldFor hk
  have hsum : b.tcnt + k + (b.rem.toInt - k).toNat = b.tcnt + b.wait + b.rem.toInt.toNat := by omega
  unfold Block.holdOver
  rw [hrem, Block.startWait_tcnt, Block.startWait_wait, hsum]
  rfl

/-- At the end of a wait with units left urgency determines a wait of some of them. -/
theorem exists_forcedOp_startWait {c : Config} (hw : c.WellFormed) {b : Block} (hp : b.phase = .hold)
    (hwait : b.wait = 0) (hrem : 0 < b.rem.toInt) :
    ∃ o k, forcedOp c b = some o ∧ effectOf o.instr c b = b.startWait k ∧ 1 ≤ k ∧ (k : Int) ≤ b.rem.toInt := by
  obtain ⟨-, -, -, -, -, -, hchunk, -⟩ := wellFormed_bounds hw
  have hforced := forcedOp_of_dueOps_singleton (dueOps_of_hold hchunk hp hwait)
  unfold holdOp at hforced
  split_ifs at hforced with hge
  · exact ⟨.holdChunk, c.chunk, hforced, rfl, hchunk, hge⟩
  · exact ⟨.holdUnit, 1, hforced, rfl, le_rfl, hrem⟩

theorem holdOver_of_done {b : Block} (hwait : b.wait = 0) (hrem : b.rem.toInt = 0) : b.holdOver = b := by
  have hzero : (0 : Word) = b.rem := ((word_eq_zero_iff b.rem).2 hrem).symm
  unfold Block.holdOver
  rw [hrem, hzero, hwait, Int.toNat_zero, Nat.add_zero, ← hwait]

/-- R84, R97: in a hold the units left are those the hold operations wait for. -/
theorem passUnits_of_hold {c : Config} (hw : c.WellFormed) (n : Nat) {s : State} (hp : s.block.phase = .hold)
    (hrem : 0 ≤ s.block.rem.toInt) (hn : (s.block.wait : Int) + s.block.rem.toInt = n)
    (ht : s.block.tcnt + n < c.period) :
    (passUnits c n s).outcome = .next { s with block := s.block.holdOver } := by
  induction n generalizing s with
  | zero => rw [holdOver_of_done (by omega) (by omega)]; rfl
  | succ n ih =>
    have waiting : ∀ b : Block, b.phase = .hold → 0 < b.wait → 0 ≤ b.rem.toInt →
        (b.wait : Int) + b.rem.toInt = (n + 1 : Nat) → b.tcnt + (n + 1) < c.period →
        (passUnits c (n + 1) { s with block := b }).outcome = .next { s with block := b.holdOver } := by
      intro b hp hwait hrem hn ht
      have he : enabled c b (timeOp b) = true := by rw [timeOp_of_hold hp, enabled_timeWait]; exact ⟨hp, hwait⟩
      rw [passUnits, passUnit_of_timeOp he, takeOp_of_enabled hw he, effectOf_timeOp, Taken.andThen_of_next,
        ← holdOver_elapse hp hwait (c := c) (by omega)]
      have hne : b.tcnt + 1 ≠ c.period := by omega
      refine ih (s := { s with block := b.elapse c }) hp hrem ?_ ?_
      · rw [Block.elapse_wait, if_pos hp, Block.elapse_rem]; omega
      · rw [Block.elapse_tcnt, if_neg hne]; omega
    by_cases hwait : 0 < s.block.wait
    · exact waiting s.block hp hwait hrem hn ht
    · have hdone : s.block.wait = 0 := by omega
      obtain ⟨o, k, hforced, heff, hk, hle⟩ := exists_forcedOp_startWait hw hp hdone (by omega)
      have hleft : (s.block.startWait k).rem.toInt = s.block.rem.toInt - k := toInt_rem_heldFor hle
      rw [passUnits_succ_of_forcedOp hw hforced, heff, ← holdOver_startWait hdone hle]
      exact waiting (s.block.startWait k) hp hk (by omega) (by rw [hleft, Block.startWait_wait]; omega) ht

/-- R82: at the end of a hold with no step request pending `PULSE_END` is filled in, and nothing after it. -/
theorem settle_of_hold_over {c : Config} (hw : c.WellFormed) {s : State} (hp : s.block.phase = .hold)
    (hwait : s.block.wait = 0) (hrem : s.block.rem.toInt = 0) (hs : s.block.stepPend = false)
    (ht : s.block.tickPend = false) :
    (settle c (fun _ => false) s).outcome = .next { s with block := s.block.leaveHold } := by
  obtain ⟨-, -, -, -, -, -, hchunk, -⟩ := wellFormed_bounds hw
  have hop : holdOp c s.block = .pulseEnd := by
    unfold holdOp
    rw [if_neg (by omega), if_neg (by omega)]
  have hforced := forcedOp_of_dueOps_singleton (hop ▸ dueOps_of_hold hchunk hp hwait)
  have hdue : dueOps c s.block.leaveHold = [] := by
    simp [dueOps_of_idle (Block.leaveHold_phase s.block), hs, ht]
  rw [settle_outcome_of_forcedOp hw rfl hforced, settle_of_none (forcedOp_of_dueOps_nil hdue)]
  rfl

/-- R84, R97: at a pending tick a line of `D` units is the whole pulse. -/
theorem runStimulus_pulse {c : Config} {s : State} {d : Nat} (pos : 1 ≤ d) (h : s.Inv c) (hp : s.block.phase = .idle)
    (ht : s.block.tickPend = true) (hs : s.block.stepPend = false) (hd : (d : Int) = holdRequest c s.block) :
    (runStimulus c [.time d pos] s).outcome =
      .next { s with block := (s.block.enterHold c).holdOver.leaveHold } := by
  have hw := h.wellFormed
  have hinv := h.block.enterHold hw hp ht
  have hrem : (s.block.enterHold c).rem.toInt = d := hd ▸ h.block.toInt_toWord_holdRequest hw
  have hlt := hinv.hold_lt_period hw rfl
  rw [hrem, Block.enterHold_tcnt, Block.enterHold_wait] at hlt
  have hforced : forcedOp c s.block = some .pulseStart :=
    forcedOp_of_dueOps_singleton (by simp [dueOps_of_idle hp, hs, ht])
  obtain ⟨n, rfl⟩ := Nat.exists_eq_add_of_le' pos
  have held := passUnits_of_hold hw (n + 1) (s := { s with block := s.block.enterHold c }) rfl hinv.rem_nonneg
    ((Int.zero_add _).trans hrem) (by change s.block.tcnt + (n + 1) < c.period; omega)
  have passed := (passUnits_succ_of_forcedOp hw hforced n).trans held
  rw [runStimulus, TraceLine.fill, Taken.eq_of_outcome passed, Taken.andThen_of_next]
  exact settle_of_hold_over hw (s := { s with block := (s.block.enterHold c).holdOver }) rfl rfl rfl hs rfl

/-! A choice not written out -/

/-- R54, R98: with both requests pending in `IDLE` urgency determines nothing, and time may not pass. -/
theorem passUnit_of_both {c : Config} {s : State} (hp : s.block.phase = .idle) (ht : s.block.tickPend = true)
    (hs : s.block.stepPend = true) : passUnit c s = ⟨[], .refused .choiceNotWritten⟩ := by
  have hdue : dueOps c s.block = [.step (inc c s.block.dirLat), .pulseStart] := by simp [dueOps_of_idle hp, hs, ht]
  have hnone : forcedOp c s.block = none := by simp only [forcedOp, hdue]
  rw [passUnit, settle_of_none hnone, Taken.nil_andThen, hdue]
  rfl

/-- Settles O59: each edge's request is served before the next edge; a pending tick's pulse takes a unit for each of its
`D`; of two requests urgency takes neither. -/
theorem urgencyFillsInTheExecOperations : Obligations.UrgencyFillsInTheExecOperations := by
  refine ⟨fun c s n hw hp hs ht lo hi => ⟨runStimulus_edges hw true n hp hs ht lo hi,
    runStimulus_edges hw false n hp hs ht lo hi⟩, fun c s d pos h hp ht hs hd => ?_, fun c s n pos hp ht hs => ?_⟩
  · rw [runStimulus_pulse pos h hp ht hs hd]
    have hrem : (s.block.enterHold c).rem.toInt = d := hd ▸ h.block.toInt_toWord_holdRequest h.wellFormed
    unfold Block.holdOver Block.leaveHold
    rw [hrem]
    simp [Block.enterHold, h.block.tick_fresh hp ht, servoInactive]
  · obtain ⟨m, rfl⟩ := Nat.exists_eq_add_of_le' pos
    rw [runStimulus, TraceLine.fill, passUnits, passUnit_of_both hp ht hs]
    rfl

end Sys2Proof.Machine
end

section
/-! The step accumulator (R63 to R67): the clamp, the intermediate of a step, and what the edge and the two step
operations do and leave unchanged. -/

namespace Sys2Proof.Machine

/-! The clamp and the intermediate (R66, R67, R69) -/

/-- Settles O32: where the first assignment changes the value it leaves `PWM_MIN`, which is under `PWM_MAX`. -/
theorem clampIsMaxOfMin : Obligations.ClampIsMaxOfMin := by
  intro c t hlt
  refine ⟨clamp_eq_max_min hlt t, ?_⟩
  by_cases hmin : t ≤ c.pwmMin
  · right
    simp only [clamp, if_pos hmin, if_neg (not_le.2 hlt)]
  · exact .inl (if_neg hmin)

/-- R66: `W`-bit addition is exact where the sum is in the signed range. -/
theorem toInt_add_ofInt {w : Word} {z : Int} (lo : minSigned ≤ w.toInt + z) (hi : w.toInt + z ≤ maxSigned) :
    (w + BitVec.ofInt 16 z).toInt = w.toInt + z := by
  have hsum : w + BitVec.ofInt 16 z = toWord (w.toInt + z) := by
    rw [toWord, BitVec.ofInt_add, BitVec.ofInt_toInt]
  rw [hsum, toInt_toWord lo hi]

/-- Settles O33: R13 (d) keeps both intermediates in the signed range. -/
theorem stepIntermediateNeverWraps : Obligations.StepIntermediateNeverWraps := by
  intro c b hw lo hi
  obtain ⟨hres, -, -, hmin, hdec, hinc, -⟩ := wellFormed_bounds hw
  rw [minSigned_eq] at hdec
  rw [maxSigned_eq] at hinc
  have hneg : b.pw - BitVec.ofInt 16 c.resolution = b.pw + BitVec.ofInt 16 (-c.resolution) := by
    rw [BitVec.ofInt_neg, BitVec.sub_eq_add_neg]
  refine ⟨⟨?_, ?_⟩, ?_, ?_⟩
  · exact Int.sub_le_sub_right lo _
  · exact Int.add_le_add_right hi _
  · rw [hneg]
    exact toInt_add_ofInt (by rw [minSigned_eq]; omega) (by rw [maxSigned_eq]; omega)
  · exact toInt_add_ofInt (by rw [minSigned_eq]; omega) (by rw [maxSigned_eq]; omega)

/-! The edge (R63) -/

/-- What the machine built with a configuration does is the operation under it. -/
theorem exec_of_execUnder {c : Config} {i : Instr} {s t : State} (h : execUnder c i s = .next t) :
    c = Config.built → exec i s = .next t := by
  rintro rfl
  rw [exec_eq_execUnder_built, h]

/-- R63, R101: latch clear and latch set. -/
theorem latchStep_state_eq (s : State) (d : Level) :
    ({ s with block := s.block.latchStep d } : State) =
      if s.block.stepPend then s else { s with block := { s.block with stepPend := true, dirLat := d } } := by
  by_cases hs : s.block.stepPend = true
  · rw [if_pos hs, latchStep_of_pending hs]
  · rw [if_neg hs, Block.latchStep, if_neg hs]

/-- Settles O23: an edge is enabled in every state, and its effect is the latch. -/
theorem edgeLatchesRequestAndDirection : Obligations.EdgeLatchesRequestAndDirection := by
  refine ⟨fun c s hw => ?_, decodeStim_table false true false, decodeStim_table false true true⟩
  have edge0 := execUnder_of_enabled hw (enabled_edge0 c s.block)
  have edge1 := execUnder_of_enabled hw (enabled_edge1 c s.block)
  exact ⟨_, _, latchStep_state_eq s false, latchStep_state_eq s true, edge0, exec_of_execUnder edge0, edge1,
    exec_of_execUnder edge1⟩

/-! The step operations (R64, R65) -/

theorem stepTarget_dec (c : Config) (b : Block) : stepTarget c false b = b.pw.toInt - c.resolution := rfl

theorem stepTarget_inc (c : Config) (b : Block) : stepTarget c true b = b.pw.toInt + c.resolution := rfl

/-- R54: the rows of the step operations. -/
theorem mem_decodeSel_step_selWord : ∀ increment ph tick step inc wnz ge gt : Bool,
    (ExecOp.step increment).instr ∈ decodeSel (selWord ph tick step inc wnz ge gt) ↔
      ph = false ∧ step = true ∧ inc = increment := by
  decide

/-- R96: which step operation the selection word of a block enables. -/
theorem mem_decodeSel_step (c : Config) (b : Block) (increment : Bool) :
    (ExecOp.step increment).instr ∈ decodeSel (sel7 c b) ↔
      b.phase = .idle ∧ b.stepPend = true ∧ inc c b.dirLat = increment := by
  have hphase : (b.phase == .hold) = false ↔ b.phase = .idle := by cases b.phase <;> decide
  rw [sel7_eq_selWord, mem_decodeSel_step_selWord, hphase]

/-- What serving a step writes: the clamped value, which `PW` holds exactly, the homing line from it, the latch. -/
theorem serveStep_eq {c : Config} (hw : c.WellFormed) (t : Int) (b : Block) :
    ∃ v : Word, v.toInt = max c.pwmMin (min c.pwmMax t) ∧
      b.serveStep c t = { b with
        pw := v
        homeOut := if v.toInt = c.homeValue then c.homeLevel else !c.homeLevel
        stepPend := false } := by
  obtain ⟨-, hlt, -⟩ := wellFormed_bounds hw
  have hv := toInt_toWord_clamp hw t
  exact ⟨toWord (clamp c t), hv.trans (clamp_eq_max_min hlt t), by rw [hv, ← homeFlag_eq]; rfl⟩

/-- R64 and R65 in one: the step operation of a direction, where its request is pending. -/
theorem execUnder_step {c : Config} {s : State} {increment : Bool} (hw : c.WellFormed) (hp : s.block.phase = .idle)
    (hs : s.block.stepPend = true) (hinc : inc c s.block.dirLat = increment) :
    ∃ (v : Word) (t : State), v.toInt = max c.pwmMin (min c.pwmMax (stepTarget c increment s.block)) ∧
      t = { s with block := { s.block with
        pw := v
        homeOut := if v.toInt = c.homeValue then c.homeLevel else !c.homeLevel
        stepPend := false } } ∧
      execUnder c (ExecOp.step increment).instr s = .next t ∧
      (c = Config.built → exec (ExecOp.step increment).instr s = .next t) := by
  obtain ⟨v, hv, hserve⟩ := serveStep_eq hw (stepTarget c increment s.block) s.block
  have run := execUnder_of_enabled hw ((enabled_step c s.block increment).2 ⟨hp, hs, hinc⟩)
  rw [effectOf_step, hserve] at run
  exact ⟨v, _, hv, rfl, run, exec_of_execUnder run⟩

/-- Settles O24: the step operation of decrement. -/
theorem stepDecSubtractsAndClamps : Obligations.StepDecSubtractsAndClamps := by
  intro c s hw
  refine ⟨?_, fun hp hs hd => execUnder_step hw hp hs ((inc_eq_false_iff c s.block.dirLat).2 hd)⟩
  rw [← inc_eq_false_iff]
  exact mem_decodeSel_step c s.block false

/-- Settles O25: the step operation of increment. -/
theorem stepIncAddsAndClamps : Obligations.StepIncAddsAndClamps := by
  intro c s hw
  refine ⟨?_, fun hp hs hd => execUnder_step hw hp hs ((inc_eq_true_iff c s.block.dirLat).2 hd)⟩
  rw [← inc_eq_true_iff]
  exact mem_decodeSel_step c s.block true

/-- `PW` and the homing line after the step operation of a direction. -/
theorem of_execUnder_step {c : Config} {s t : State} {increment : Bool}
    (h : execUnder c (ExecOp.step increment).instr s = .next t) :
    c.WellFormed ∧ t.block.pw.toInt = clamp c (stepTarget c increment s.block) ∧
      t.block.homeOut = homeFlag c t.block.pw.toInt := by
  obtain ⟨hw, -, rfl⟩ := (execUnder_eq_next_iff c _ s t).1 h
  have hpw := toInt_toWord_clamp hw (stepTarget c increment s.block)
  rw [effectOf_step, Block.serveStep_pw, Block.serveStep_homeOut, hpw]
  exact ⟨hw, rfl, rfl⟩

/-- R67, R75: a step that runs has `RES` positive; its clamp keeps `PW` in range and leaves an intermediate in range as
it is. -/
theorem pw_after_step {c : Config} {s t : State} {increment : Bool}
    (h : execUnder c (ExecOp.step increment).instr s = .next t) :
    1 ≤ c.resolution ∧ (c.pwmMin ≤ t.block.pw.toInt ∧ t.block.pw.toInt ≤ c.pwmMax) ∧
      (c.pwmMin ≤ stepTarget c increment s.block → stepTarget c increment s.block ≤ c.pwmMax →
        t.block.pw.toInt = stepTarget c increment s.block) := by
  obtain ⟨hw, hpw, -⟩ := of_execUnder_step h
  obtain ⟨hres, hlt, -⟩ := wellFormed_bounds hw
  rw [hpw]
  exact ⟨hres, ⟨clamp_ge_min hlt _, clamp_le_max hlt _⟩, clamp_of_mem⟩

/-- Settles O34: with `RES` positive and `PW` in range, the intermediate can pass one bound only. -/
theorem stepStaysInRangeAndMovesByResolution : Obligations.StepStaysInRangeAndMovesByResolution := by
  intro c s t lo hi
  constructor
  · intro h
    obtain ⟨hres, range, inside⟩ := pw_after_step (increment := false) h
    exact ⟨range, fun hin => inside (Int.le_sub_right_of_add_le hin) (by rw [stepTarget_dec]; omega)⟩
  · intro h
    obtain ⟨hres, range, inside⟩ := pw_after_step (increment := true) h
    exact ⟨range, fun hin => inside (by rw [stepTarget_inc]; omega) (Int.add_le_of_le_sub_right hin)⟩

/-! `n` steps, each served before the next edge (R60) -/

/-- The block after a step of a direction: the edge, then the step operation it latches. -/
def Block.stepped (c : Config) (increment : Bool) (b : Block) : Block :=
  (b.latchStep (dirLevel c increment)).serveStep c (stepTarget c increment b)

section Stepped

variable (c : Config) (increment : Bool) (b : Block)

@[simp] theorem Block.stepped_phase : (b.stepped c increment).phase = b.phase := rfl

@[simp] theorem Block.stepped_stepPend : (b.stepped c increment).stepPend = false := rfl

@[simp] theorem Block.stepped_homeOut :
    (b.stepped c increment).homeOut = homeFlag c (clamp c (stepTarget c increment b)) := rfl

theorem toInt_stepped_pw {c : Config} (hw : c.WellFormed) (increment : Bool) (b : Block) :
    (b.stepped c increment).pw.toInt = clamp c (stepTarget c increment b) := toInt_toWord_clamp hw _

theorem Block.Inv.stepped {c : Config} {b : Block} (h : b.Inv c) (hw : c.WellFormed) (increment : Bool) :
    (b.stepped c increment).Inv c := (h.latchStep _).serveStep hw _

end Stepped

section Carried

variable {c : Config} {b : Block}

/-- R60: in `IDLE` with no request pending, the adjacent pair. -/
theorem carries_step (hw : c.WellFormed) (hp : b.phase = .idle) (hs : b.stepPend = false) (increment : Bool) :
    Carries c [.edge increment, .op (.step increment)] b (b.stepped c increment) := by
  have served := Carries.op (o := .step increment) (b := b.latchStep (dirLevel c increment)) hw
    ((enabled_step c _ increment).2 ⟨hp, rfl, by simp [hs]⟩)
  rw [effectOf_step] at served
  exact (Carries.edge hw increment b).append served

/-- The pairs of `STEPS n`. -/
theorem stepsLines_of_idle (hp : b.phase = .idle) (hs : b.stepPend = false) (increment : Bool) (n : Nat) :
    stepsLines c b increment n = (List.replicate n [.edge increment, .op (.step increment)]).flatten := by
  cases n with
  | zero => rfl
  | succ n => simp [stepsLines, stepLines_of_idle hp hs, hs, List.replicate_succ]

theorem carries_steps (hw : c.WellFormed) (hp : b.phase = .idle) (hs : b.stepPend = false) (increment : Bool)
    (n : Nat) : Carries c (List.replicate n [.edge increment, .op (.step increment)]).flatten b
      ((Block.stepped c increment)^[n] b) := by
  induction n generalizing b with
  | zero => exact Carries.nil c b
  | succ n ih =>
    rw [List.replicate_succ, List.flatten_cons, Function.iterate_succ_apply]
    exact (carries_step hw hp hs increment).append
      (ih ((b.stepped_phase c increment).trans hp) (b.stepped_stepPend c increment))

end Carried

section Pseudo

variable {c : Config} {s : State}

theorem run_step_of_idle (hw : c.WellFormed) (hp : s.block.phase = .idle) (hs : s.block.stepPend = false)
    (increment : Bool) :
    (Pseudo.step increment).run c s = .next { s with block := s.block.stepped c increment } := by
  rw [Pseudo.run_step, stepLines_of_idle hp hs]
  exact carries_step hw hp hs increment s rfl

theorem run_steps_of_idle (hw : c.WellFormed) (hp : s.block.phase = .idle) (hs : s.block.stepPend = false)
    (n : Nat) (increment : Bool) :
    (Pseudo.steps n increment).run c s = .next { s with block := (Block.stepped c increment)^[n] s.block } := by
  rw [Pseudo.run_steps, stepsLines_of_idle hp hs]
  exact carries_steps hw hp hs increment n s rfl

end Pseudo

/-- After `n` steps the block is ready for the next. -/
theorem iterate_stepped_idle {c : Config} {b : Block} (hp : b.phase = .idle) (hs : b.stepPend = false)
    (increment : Bool) (n : Nat) :
    ((Block.stepped c increment)^[n] b).phase = .idle ∧ ((Block.stepped c increment)^[n] b).stepPend = false := by
  induction n generalizing b with
  | zero => exact ⟨hp, hs⟩
  | succ n ih => exact ih ((b.stepped_phase c increment).trans hp) (b.stepped_stepPend c increment)

/-- R76: how far `n` steps move `PW`. -/
theorem toInt_iterate_stepped_pw {c : Config} {b : Block} (hw : c.WellFormed) (lo : c.pwmMin ≤ b.pw.toInt)
    (hi : b.pw.toInt ≤ c.pwmMax) (increment : Bool) (n : Nat) :
    ((Block.stepped c increment)^[n] b).pw.toInt = travelled c increment n b.pw.toInt := by
  obtain ⟨-, hlt, -⟩ := wellFormed_bounds hw
  induction n generalizing b with
  | zero => exact (travelled_zero lo hi increment).symm
  | succ n ih =>
    have hpw := toInt_stepped_pw hw increment b
    rw [Function.iterate_succ_apply, ih (by rw [hpw]; exact clamp_ge_min hlt _) (by rw [hpw]; exact clamp_le_max hlt _),
      hpw, travelled_clamp hw lo hi]

theorem Block.Inv.iterate_stepped {c : Config} {b : Block} (h : b.Inv c) (hw : c.WellFormed) (increment : Bool)
    (n : Nat) : ((Block.stepped c increment)^[n] b).Inv c := by
  induction n generalizing b with
  | zero => exact h
  | succ n ih => exact ih (h.stepped hw increment)

/-- The bound that steps of a direction run into. -/
def boundToward (c : Config) (increment : Bool) : Int := if increment then c.pwmMax else c.pwmMin

theorem boundToward_mem_range {c : Config} (hw : c.WellFormed) (increment : Bool) :
    c.pwmMin ≤ boundToward c increment ∧ boundToward c increment ≤ c.pwmMax := by
  obtain ⟨-, hlt, -⟩ := wellFormed_bounds hw
  cases increment with
  | false => exact ⟨le_refl _, hlt.le⟩
  | true => exact ⟨hlt.le, le_refl _⟩

/-- R72: from the bound, steps into it go nowhere. -/
theorem travelled_boundToward {c : Config} (hw : c.WellFormed) (increment : Bool) (n : Nat) :
    travelled c increment n (boundToward c increment) = boundToward c increment := by
  obtain ⟨hres, -⟩ := wellFormed_bounds hw
  have hpos : 0 ≤ (n : Int) * c.resolution := by positivity
  cases increment with
  | false => simp [travelled, boundToward, hpos]
  | true => simp [travelled, boundToward, hpos]

theorem toInt_iterate_stepped_of_bound {c : Config} {b : Block} {increment : Bool} (hw : c.WellFormed)
    (hb : b.pw.toInt = boundToward c increment) (n : Nat) :
    ((Block.stepped c increment)^[n] b).pw.toInt = boundToward c increment := by
  obtain ⟨lo, hi⟩ := boundToward_mem_range hw increment
  rw [toInt_iterate_stepped_pw hw (hb ▸ lo) (hb ▸ hi), hb, travelled_boundToward hw]

/-- R13 (b): one step from a bound stays inside the range. -/
theorem travelled_one_from_bound {c : Config} (hw : c.WellFormed) (increment : Bool) :
    travelled c (!increment) 1 (boundToward c increment) =
      if increment then c.pwmMax - c.resolution else c.pwmMin + c.resolution := by
  obtain ⟨-, -, hrange, -⟩ := wellFormed_bounds hw
  cases increment with
  | false => simp only [travelled, boundToward, Bool.not_false, Bool.false_eq_true, if_true, if_false]; omega
  | true => simp only [travelled, boundToward, Bool.not_true, Bool.false_eq_true, if_true, if_false]; omega

/-! At a bound (R72, R73) -/

/-- R72 for a direction: `PW` stays, and by the invariant `home_out` is the level of `PW`. -/
theorem run_steps_of_bound {c : Config} {s : State} (h : s.Inv c) (hp : s.block.phase = .idle)
    (hs : s.block.stepPend = false) (n : Nat) (increment : Bool) (hb : s.block.pw.toInt = boundToward c increment) :
    ∃ t, (Pseudo.steps n increment).run c s = .next t ∧ t.block.pw = s.block.pw ∧
      t.block.homeOut = s.block.homeOut := by
  have hpw : ((Block.stepped c increment)^[n] s.block).pw = s.block.pw :=
    BitVec.eq_of_toInt_eq ((toInt_iterate_stepped_of_bound h.wellFormed hb n).trans hb.symm)
  refine ⟨_, run_steps_of_idle h.wellFormed hp hs n increment, hpw, ?_⟩
  rw [h.block.home_iff, (h.block.iterate_stepped h.wellFormed increment n).home_iff, hpw]

/-- Settles O35: each direction into its own bound. -/
theorem stepsAtABoundAreAbsorbed : Obligations.StepsAtABoundAreAbsorbed := fun _ _ n h hp hs =>
  ⟨run_steps_of_bound h hp hs n true, run_steps_of_bound h hp hs n false⟩

/-- R73 for a direction: the step back leaves from the bound itself. -/
theorem run_steps_then_step_of_bound {c : Config} {s : State} (hw : c.WellFormed) (hp : s.block.phase = .idle)
    (hs : s.block.stepPend = false) (n : Nat) (increment : Bool) (hb : s.block.pw.toInt = boundToward c increment) :
    ∃ t u, (Pseudo.steps n increment).run c s = .next t ∧ (Pseudo.step (!increment)).run c t = .next u ∧
      u.block.pw.toInt = if increment then c.pwmMax - c.resolution else c.pwmMin + c.resolution := by
  obtain ⟨hp', hs'⟩ := iterate_stepped_idle (c := c) hp hs increment n
  obtain ⟨lo, hi⟩ := boundToward_mem_range hw increment
  have hb' := toInt_iterate_stepped_of_bound hw hb n
  refine ⟨_, _, run_steps_of_idle hw hp hs n increment, run_step_of_idle hw hp' hs' (!increment), ?_⟩
  rw [← travelled_one_from_bound hw, ← hb']
  exact toInt_iterate_stepped_pw hw (hb' ▸ lo) (hb' ▸ hi) (!increment) 1

/-- Settles O36: after the absorbed steps the block is where it was, and the range holds a step. -/
theorem reversalMovesExactlyOneStepFromTheBound : Obligations.ReversalMovesExactlyOneStepFromTheBound :=
  fun _ _ n hw hp hs => ⟨run_steps_then_step_of_bound hw hp hs n true,
    run_steps_then_step_of_bound hw hp hs n false⟩

/-! From one bound to the other (R76) -/

/-- The count of R76, the ceiling of the range over `RES`. -/
theorem ceiling_le_iff {c : Config} (hres : 1 ≤ c.resolution) (n : Nat) :
    -((c.pwmMin - c.pwmMax) / c.resolution) ≤ (n : Int) ↔ c.pwmMax ≤ c.pwmMin + n * c.resolution := by
  rw [neg_le, Int.le_ediv_iff_mul_le hres, neg_mul, neg_le, neg_sub, sub_le_iff_le_add']

/-- R76 for a direction, from the bound behind. -/
theorem travelled_across_eq_iff {c : Config} (hw : c.WellFormed) (increment : Bool) (n : Nat) :
    travelled c increment n (boundToward c (!increment)) = boundToward c increment ↔
      -((c.pwmMin - c.pwmMax) / c.resolution) ≤ (n : Int) := by
  obtain ⟨hres, -⟩ := wellFormed_bounds hw
  rw [ceiling_le_iff hres]
  cases increment with
  | false => simp [travelled, boundToward]
  | true => simp [travelled, boundToward]

theorem run_steps_across {c : Config} {s : State} (hw : c.WellFormed) (hp : s.block.phase = .idle)
    (hs : s.block.stepPend = false) (n : Nat) (increment : Bool)
    (hb : s.block.pw.toInt = boundToward c (!increment)) :
    ∃ t, (Pseudo.steps n increment).run c s = .next t ∧
      t.block.pw.toInt = travelled c increment n (boundToward c (!increment)) ∧
      (t.block.pw.toInt = boundToward c increment ↔ -((c.pwmMin - c.pwmMax) / c.resolution) ≤ (n : Int)) := by
  obtain ⟨lo, hi⟩ := boundToward_mem_range hw (!increment)
  have hpw := toInt_iterate_stepped_pw hw (hb ▸ lo) (hb ▸ hi) increment n
  rw [hb] at hpw
  exact ⟨_, run_steps_of_idle hw hp hs n increment, hpw, hpw ▸ travelled_across_eq_iff hw increment n⟩

/-- Settles O38: each direction from the bound behind it. -/
theorem travelTakesTheCeilingOfRangeOverResolution : Obligations.TravelTakesTheCeilingOfRangeOverResolution :=
  fun _ _ n hw hp hs => ⟨run_steps_across hw hp hs n true, run_steps_across hw hp hs n false⟩

/-! The homing line (R68, R74) -/

/-- R68: the level for "homed" is written exactly for the home extreme. -/
theorem homeFlag_eq_signalHome_iff (c : Config) (v : Int) : homeFlag c v = c.signalHome ↔ v = c.homeValue := by
  rw [homeFlag_eq, Config.signalHome]
  split_ifs with hv <;> simp [hv]

theorem homeFlag_of_ne {c : Config} {v : Int} (hv : v ≠ c.homeValue) : homeFlag c v = c.signalNotHome := by
  rw [homeFlag_eq, if_neg hv, Config.signalNotHome]

theorem stepped_homeOut_eq {c : Config} (hw : c.WellFormed) (increment : Bool) (b : Block) :
    (b.stepped c increment).homeOut = homeFlag c (b.stepped c increment).pw.toInt := by
  rw [toInt_stepped_pw hw, Block.stepped_homeOut]

/-- R9, R74: the direction toward the home extreme. -/
def towardHome (c : Config) : Bool := decide (c.homePolarity = .homeAtMax)

theorem not_towardHome (c : Config) : (!towardHome c) = decide (c.homePolarity = .homeAtMin) := by
  unfold towardHome
  cases c.homePolarity <;> rfl

/-- R9: the home extreme is the bound that steps toward it run into. -/
theorem boundToward_towardHome (c : Config) : boundToward c (towardHome c) = c.homeValue := by
  unfold towardHome Config.homeValue
  cases c.homePolarity <;> rfl

/-- One step away from a bound leaves it. -/
theorem travelled_one_ne_bound {c : Config} (hw : c.WellFormed) (increment : Bool) :
    travelled c (!increment) 1 (boundToward c increment) ≠ boundToward c increment := by
  obtain ⟨hres, -⟩ := wellFormed_bounds hw
  rw [travelled_one_from_bound hw]
  cases increment with
  | false => simp only [boundToward, Bool.false_eq_true, if_false]; omega
  | true => simp only [boundToward, if_true]; omega

/-- R74 from the home extreme: one step away deasserts, one step toward home changes nothing. -/
theorem stepped_of_home {c : Config} {b : Block} (hw : c.WellFormed) (hpw : b.pw.toInt = c.homeValue) :
    (b.stepped c (!towardHome c)).homeOut = c.signalNotHome ∧
      (b.stepped c (towardHome c)).homeOut = c.signalHome ∧ (b.stepped c (towardHome c)).pw = b.pw := by
  obtain ⟨lo, hi⟩ := homeValue_mem_range hw
  have away : (b.stepped c (!towardHome c)).pw.toInt ≠ c.homeValue := by
    have hone := toInt_iterate_stepped_pw hw (hpw ▸ lo) (hpw ▸ hi) (!towardHome c) 1
    rw [hpw, ← boundToward_towardHome] at hone
    rw [← boundToward_towardHome, ← Function.iterate_one (Block.stepped c (!towardHome c)), hone]
    exact travelled_one_ne_bound hw (towardHome c)
  have toward : (b.stepped c (towardHome c)).pw.toInt = c.homeValue := by
    rw [← boundToward_towardHome] at hpw ⊢
    exact toInt_iterate_stepped_of_bound hw hpw 1
  refine ⟨?_, ?_, BitVec.eq_of_toInt_eq (toward.trans hpw.symm)⟩
  · rw [stepped_homeOut_eq hw, homeFlag_of_ne away]
  · rw [stepped_homeOut_eq hw, homeFlag_eq_signalHome_iff, toward]

/-- Settles O37: the reset value of `PW` is the home extreme, and a step operation writes `home_out` from the new
`PW`. -/
theorem homingLineFollowsTheHomeExtreme : Obligations.HomingLineFollowsTheHomeExtreme := by
  refine ⟨fun c s hw hreset => ?_, fun c s t h => ?_⟩
  · have hp : s.block.phase = .idle := by rw [hreset]; rfl
    have hs : s.block.stepPend = false := by rw [hreset]; rfl
    have hpw : s.block.pw.toInt = c.homeValue := by rw [hreset]; exact toInt_toWord_homeValue hw
    obtain ⟨away, toward, stays⟩ := stepped_of_home hw hpw
    rw [← not_towardHome]
    exact ⟨by rw [hreset]; rfl, ⟨_, run_step_of_idle hw hp hs _, away⟩,
      ⟨_, run_step_of_idle hw hp hs _, toward, stays⟩⟩
  · have line : t.block.homeOut = homeFlag c t.block.pw.toInt := by
      rcases h with h | h
      · obtain ⟨-, -, line⟩ := of_execUnder_step (increment := false) h
        exact line
      · obtain ⟨-, -, line⟩ := of_execUnder_step (increment := true) h
        exact line
    rw [line, homeFlag_eq_signalHome_iff]

end Sys2Proof.Machine
end

section
/-! Edges between operations (R63, R97, R101): those before service coalesce to the first, and one that finds the block
idle is served before time passes. -/

namespace Sys2Proof.Machine

/-! A step by where its operation comes from -/

/-- A step whose stimulus word names an operation uses the word up and decides nothing else. -/
theorem stepUnder_of_stimulus {c : Config} {s : State} {i : Instr} (hw : c.WellFormed)
    (hstim : decodeStim s.stimulus = some i) (he : enabled c s.block i = true) :
    stepUnder c s = .next { s with block := effectOf i c s.block, inputs := s.inputs.tail } := by
  have hcons : s.consume c = { s with inputs := s.inputs.tail } := by
    simp [State.consume, State.arbitrates, hstim]
  rw [stepUnder_of_wellFormed hw, selected_of_stimulus hstim, hcons]
  exact execUnder_of_enabled hw he

theorem selected_of_candidate {c : Config} {s : State} {i : Instr} (hin : s.inputs = [])
    (hcand : s.candidates c = [i]) : s.selected c = i := by
  have hstim : decodeStim s.stimulus = none := by rw [State.stimulus, hin]; decide
  simp [State.selected, hstim, hcand, arbitrate]

/-- A step with no stimulus listed, where the selection word enables one operation. -/
theorem stepUnder_of_candidate {c : Config} {s : State} {i : Instr} (hw : c.WellFormed) (hin : s.inputs = [])
    (hcand : s.candidates c = [i]) (he : enabled c s.block i = true) :
    stepUnder c s = .next { s with block := effectOf i c s.block } := by
  have htail : s.inputs.tail = s.inputs := by rw [hin]; rfl
  have hcons : s.consume c = s := by simp [State.consume, State.arbitrates, hcand, htail]
  rw [stepUnder_of_wellFormed hw, selected_of_candidate hin hcand, hcons, execUnder_of_enabled hw he]

/-! Edges -/

/-- The operation of an edge with `dir_in` at the given level (R63). -/
def edgeAt (d : Level) : Instr := if d then .edge1 else .edge0

/-- R52: the words `01x`. -/
theorem decodeStim_edge (d : Level) : decodeStim (0b01#2 ++ BitVec.ofBool d) = some (edgeAt d) :=
  decodeStim_table false true d

theorem effectOf_edgeAt (c : Config) (d : Level) (b : Block) : effectOf (edgeAt d) c b = b.latchStep d := by
  cases d <;> rfl

theorem enabled_edgeAt (c : Config) (b : Block) (d : Level) : enabled c b (edgeAt d) = true := by
  cases d <;> rfl

section Edge

variable {c : Config} {s : State} {d : Level} {rest : List Stim3}

theorem decodeStim_stimulus_edge (hin : s.inputs = (0b01#2 ++ BitVec.ofBool d) :: rest) :
    decodeStim s.stimulus = some (edgeAt d) := by
  rw [State.stimulus, hin]
  exact decodeStim_edge d

/-- R63: a step that reads an edge. -/
theorem stepUnder_of_edge (hw : c.WellFormed) (hin : s.inputs = (0b01#2 ++ BitVec.ofBool d) :: rest) :
    stepUnder c s = .next { s with block := s.block.latchStep d, inputs := rest } := by
  rw [stepUnder_of_stimulus hw (decodeStim_stimulus_edge hin) (enabled_edgeAt c s.block d), effectOf_edgeAt, hin]
  rfl

end Edge

/-- R101: with a request pending, edges are used up and change nothing. -/
theorem runSteps_edges_of_pending {c : Config} (hw : c.WellFormed) (ds : List Level) (rest : List Stim3) {s : State}
    (hs : s.block.stepPend = true) (hin : s.inputs = ds.map (fun e => 0b01#2 ++ BitVec.ofBool e) ++ rest) :
    runSteps c ds.length s = .next { s with inputs := rest } := by
  induction ds generalizing s with
  | nil => obtain rfl : s.inputs = rest := hin; rfl
  | cons d ds ih =>
    rw [List.length_cons, runSteps_succ_of_next (stepUnder_of_edge hw hin), latchStep_of_pending hs]
    exact ih hs rfl

/-- Settles O39: the first edge is latched, and those after it find a request pending. -/
theorem edgesBeforeServiceCoalesceToTheFirst : Obligations.EdgesBeforeServiceCoalesceToTheFirst := by
  intro c s d ds rest hw hs hin
  rw [runSteps_succ_of_next (stepUnder_of_edge hw hin), runSteps_edges_of_pending hw ds rest rfl rfl,
    Block.latchStep, hs]
  rfl

/-! An edge in `IDLE` -/

/-- R54: in `IDLE` with a step request alone the word selects its step operation. -/
theorem candidates_of_step_request {c : Config} {s : State} (hp : s.block.phase = .idle)
    (ht : s.block.tickPend = false) (hs : s.block.stepPend = true) :
    s.candidates c = [(ExecOp.step (inc c s.block.dirLat)).instr] := by
  have word := selectionWordDecodesByTable false false true (inc c s.block.dirLat) (waitNonzero s.block)
    (remAtLeastChunk c s.block) (remPositive s.block)
  rw [State.candidates, sel7, hp, ht, hs]
  refine word.trans ?_
  cases inc c s.block.dirLat <;> rfl

theorem operations_of_no_request {c : Config} {s : State} (hw : c.WellFormed) (hin : s.inputs = [])
    (hp : s.block.phase = .idle) (ht : s.block.tickPend = false) (hs : s.block.stepPend = false) :
    operations c 1 s = [.timeIdle] := by
  rw [operations_succ_of_next (stepUnder_of_no_request hw hin hp ht hs),
    selected_of_candidate hin (candidates_of_no_request hp ht hs)]
  rfl

/-- R97: a pending step request is served, and then nothing is left but time. -/
theorem operations_of_step_request {c : Config} {s : State} (hw : c.WellFormed) (hin : s.inputs = [])
    (hp : s.block.phase = .idle) (ht : s.block.tickPend = false) (hs : s.block.stepPend = true) :
    operations c 2 s = [(ExecOp.step (inc c s.block.dirLat)).instr, .timeIdle] := by
  have due := candidates_of_step_request (c := c) hp ht hs
  have served := stepUnder_of_candidate hw hin due ((enabled_step c s.block _).2 ⟨hp, hs, rfl⟩)
  rw [effectOf_step] at served
  rw [operations_succ_of_next served, selected_of_candidate hin due]
  exact congrArg (List.cons _) (operations_of_no_request hw hin hp ht rfl)

/-- R49: the step operation of a raw direction. -/
theorem step_inc_instr (c : Config) (d : Level) :
    (ExecOp.step (inc c d)).instr = if d = c.dirDecLevel then .stepDec else .stepInc := by
  cases h : inc c d with
  | false => rw [if_pos ((inc_eq_false_iff c d).1 h)]; rfl
  | true => rw [if_neg ((inc_eq_true_iff c d).1 h)]; rfl

/-- Settles O40: the edge is read first; then its request alone is pending. -/
theorem idleEdgeIsServedBeforeTimePasses : Obligations.IdleEdgeIsServedBeforeTimePasses := by
  intro c s d hw hp hs ht hin
  have hdir : (s.block.latchStep d).dirLat = d := by simp [hs]
  have served := operations_of_step_request (s := { s with block := s.block.latchStep d, inputs := [] }) hw rfl hp ht
    rfl
  rw [hdir, step_inc_instr] at served
  rw [operations_succ_of_next (stepUnder_of_edge hw hin), selected_of_stimulus (decodeStim_stimulus_edge hin), served]
  rfl

end Sys2Proof.Machine
end

section
/-! The pulse generator (41_pwm_generator.md): what the selection word of a block enables in each phase (R83, R96, R97),
the operations where they are enabled and where they are not (R77, R79 to R82), the single counter (R91). -/

namespace Sys2Proof.Machine

/-! What the selection word of a block enables -/

theorem timeOp_ne_instr (b : Block) (o : ExecOp) : o.instr ≠ timeOp b := by
  unfold timeOp
  cases b.phase <;> cases o <;> nofun

/-- R83: in a hold one operation is enabled, and which. -/
theorem decodeSel_of_hold {c : Config} (hw : c.WellFormed) {b : Block} (hp : b.phase = .hold) :
    decodeSel (sel7 c b) = [if 0 < b.wait then .timeWait else (holdOp c b).instr] := by
  obtain ⟨-, -, -, -, -, -, hchunk, -⟩ := wellFormed_bounds hw
  have table := selectionWordDecodesByTable true b.tickPend b.stepPend (inc c b.dirLat) (waitNonzero b)
    (remAtLeastChunk c b) (remPositive b)
  rw [sel7_eq_selWord, hp]
  refine table.trans ?_
  simp only [waitNonzero, remAtLeastChunk, remPositive, holdOp, if_true, Bool.and_eq_true, decide_eq_true_eq]
  by_cases hwait : 0 < b.wait
  · rw [if_pos hwait, if_pos hwait]
  rw [if_neg hwait, if_neg hwait]
  by_cases hge : (c.chunk : Int) ≤ b.rem.toInt
  · have hgt : 0 < b.rem.toInt := by omega
    simp [hge, hgt, ExecOp.instr]
  · by_cases hgt : 0 < b.rem.toInt <;> simp [hge, hgt, ExecOp.instr]

/-- R96, R97: the word enables the operations of `EXEC` that are due, and where none is, `TIME`. -/
theorem decodeSel_eq_dueOps {c : Config} (hw : c.WellFormed) (b : Block) :
    decodeSel (sel7 c b) = if dueOps c b = [] then [timeOp b] else (dueOps c b).map ExecOp.instr := by
  obtain ⟨-, -, -, -, -, -, hchunk, -⟩ := wellFormed_bounds hw
  cases hp : b.phase with
  | idle =>
    have table := selectionWordDecodesByTable false b.tickPend b.stepPend (inc c b.dirLat) (waitNonzero b)
      (remAtLeastChunk c b) (remPositive b)
    rw [sel7_eq_selWord, hp, dueOps_of_idle hp, timeOp_of_idle hp]
    refine table.trans ?_
    cases b.stepPend <;> cases b.tickPend <;> cases inc c b.dirLat <;> rfl
  | hold =>
    rw [decodeSel_of_hold hw hp]
    by_cases hwait : 0 < b.wait
    · rw [if_pos hwait, dueOps_of_wait hp hwait, timeOp_of_hold hp]
      rfl
    · rw [if_neg hwait, dueOps_of_hold hchunk hp (Nat.eq_zero_of_not_pos hwait)]
      rfl

theorem dueOps_eq_nil_iff_timeOp {c : Config} (hw : c.WellFormed) (b : Block) :
    dueOps c b = [] ↔ enabled c b (timeOp b) = true := by
  obtain ⟨-, -, -, -, -, -, hchunk, -⟩ := wellFormed_bounds hw
  refine ⟨fun hdue => ?_, dueOps_of_timeOp⟩
  cases hp : b.phase with
  | idle =>
    rw [dueOps_of_idle hp] at hdue
    rw [timeOp_of_idle hp, enabled_timeIdle]
    refine ⟨hp, ?_, ?_⟩
    · by_contra ht
      simp [Bool.not_eq_false _ ▸ ht] at hdue
    · by_contra hs
      simp [Bool.not_eq_false _ ▸ hs] at hdue
  | hold =>
    rw [timeOp_of_hold hp, enabled_timeWait]
    refine ⟨hp, Nat.pos_of_ne_zero fun hwait => ?_⟩
    rw [dueOps_of_hold hchunk hp hwait] at hdue
    cases hdue

theorem mem_decodeSel_instr {c : Config} (hw : c.WellFormed) (b : Block) (o : ExecOp) :
    o.instr ∈ decodeSel (sel7 c b) ↔ enabled c b o.instr = true := by
  rw [decodeSel_eq_dueOps hw, ← mem_dueOps]
  split_ifs with hdue
  · rw [hdue, List.mem_singleton]
    exact iff_of_false (timeOp_ne_instr b o) List.not_mem_nil
  · refine ⟨fun hmem => ?_, List.mem_map_of_mem⟩
    obtain ⟨o', ho', heq⟩ := List.mem_map.1 hmem
    rwa [mem_dueOps, heq, ← mem_dueOps] at ho'

theorem mem_decodeSel_time {c : Config} (hw : c.WellFormed) (b : Block) {i : Instr} (hi : i.isTime = true) :
    i ∈ decodeSel (sel7 c b) ↔ i = timeOp b ∧ enabled c b (timeOp b) = true := by
  rw [decodeSel_eq_dueOps hw, ← dueOps_eq_nil_iff_timeOp hw]
  split_ifs with hdue
  · rw [List.mem_singleton, and_iff_left hdue]
  · refine iff_of_false (fun hmem => ?_) (fun h => hdue h.2)
    obtain ⟨o, -, rfl⟩ := List.mem_map.1 hmem
    rw [ExecOp.isTime_instr] at hi
    cases hi

theorem mem_decodeSel_timeIdle {c : Config} (hw : c.WellFormed) (b : Block) :
    .timeIdle ∈ decodeSel (sel7 c b) ↔ enabled c b .timeIdle = true := by
  rw [mem_decodeSel_time hw b rfl]
  cases hp : b.phase with
  | idle => rw [timeOp_of_idle hp]; exact and_iff_right rfl
  | hold =>
    rw [timeOp_of_hold hp, enabled_timeIdle, hp]
    exact iff_of_false (fun h => nomatch h.1) (fun h => nomatch h.1)

theorem mem_decodeSel_timeWait {c : Config} (hw : c.WellFormed) (b : Block) :
    .timeWait ∈ decodeSel (sel7 c b) ↔ enabled c b .timeWait = true := by
  rw [mem_decodeSel_time hw b rfl]
  cases hp : b.phase with
  | idle =>
    rw [timeOp_of_idle hp, enabled_timeWait, hp]
    exact iff_of_false (fun h => nomatch h.1) (fun h => nomatch h.1)
  | hold => rw [timeOp_of_hold hp]; exact and_iff_right rfl

/-- Settles O15: R83's cases in its order; in `IDLE` the invariant has no wait running. -/
theorem holdEnablesExactlyOneOperation : Obligations.HoldEnablesExactlyOneOperation := by
  refine ⟨fun c b hw hp => ?_, fun c s h hp => (h.block.idle_done hp).1⟩
  rw [decodeSel_of_hold hw hp, holdOp]
  split_ifs <;> rfl

/-! Operations that are not enabled -/

theorem execUnder_of_disabled {c : Config} {i : Instr} {s : State} (hw : c.WellFormed) (hi : i.WellFormed)
    (he : ¬ enabled c s.block i = true) : execUnder c i s = .refused .notEnabled := by
  rw [execUnder_eq_perform hi, State.perform, if_pos hw, if_neg he]

/-- Settles O17: each condition is the operation's `enabled` over the fields. -/
theorem disabledOperationsDoNotRun : Obligations.DisabledOperationsDoNotRun := by
  intro c s hw
  have refuses : ∀ {i : Instr} {P : Prop}, i.WellFormed → (enabled c s.block i = true ↔ P) → ¬ P →
      execUnder c i s = .refused .notEnabled :=
    fun hi hiff hP => execUnder_of_disabled hw hi (mt hiff.1 hP)
  rw [← inc_eq_false_iff, ← inc_eq_true_iff]
  exact ⟨refuses nofun (enabled_stepDec c s.block), refuses nofun (enabled_stepInc c s.block),
    refuses nofun (enabled_pulseStart c s.block), refuses nofun (enabled_timeIdle c s.block),
    refuses nofun (enabled_timeWait c s.block), refuses nofun (enabled_holdChunk c s.block),
    refuses nofun (enabled_holdUnit c s.block), refuses nofun (enabled_pulseEnd c s.block)⟩

/-! The operations where they are enabled -/

/-- An operation taken where it is enabled, of the machine as built too. -/
theorem runs_of_enabled {c : Config} {i : Instr} {s : State} {b : Block} (hw : c.WellFormed)
    (he : enabled c s.block i = true) (heff : effectOf i c s.block = b) :
    ∃ t : State, t = { s with block := b } ∧ execUnder c i s = .next t ∧ (c = Config.built → exec i s = .next t) := by
  have run := execUnder_of_enabled hw he
  rw [heff] at run
  exact ⟨_, rfl, run, exec_of_execUnder run⟩

theorem elapse_of_idle {c : Config} {b : Block} (hp : b.phase = .idle) (ht : b.tickPend = false) :
    b.elapse c = { b with
      tcnt := if b.tcnt + 1 = c.period then 0 else b.tcnt + 1
      tickPend := decide (b.tcnt + 1 = c.period) } := by
  by_cases hwrap : b.tcnt + 1 = c.period <;> simp [Block.elapse, hp, ht, hwrap]

theorem elapse_of_hold {c : Config} {b : Block} (hp : b.phase = .hold) :
    b.elapse c = { b with
      wait := b.wait - 1
      tcnt := if b.tcnt + 1 = c.period then 0 else b.tcnt + 1
      tickPend := b.tickPend || decide (b.tcnt + 1 = c.period) } := by
  by_cases hwrap : b.tcnt + 1 = c.period <;> simp [Block.elapse, hp, hwrap]

/-- Settles O26: the two rows of `TIME` have one effect, whose wait advances in a hold alone. -/
theorem timeAdvancesTimerAndWait : Obligations.TimeAdvancesTimerAndWait := by
  intro c s hw
  have idle := enabled_timeIdle c s.block
  have hold := enabled_timeWait c s.block
  exact ⟨⟨(mem_decodeSel_timeIdle hw s.block).trans idle, (mem_decodeSel_timeWait hw s.block).trans hold⟩,
    fun hp ht hs => runs_of_enabled hw (idle.2 ⟨hp, ht, hs⟩) (elapse_of_idle hp ht),
    fun hp hwait => runs_of_enabled hw (hold.2 ⟨hp, hwait⟩) (elapse_of_hold hp)⟩

/-- R13 (f): `rem` holds the whole of the longest hold. -/
theorem toInt_toWord_holdRequest {c : Config} (hw : c.WellFormed) {b : Block} (lo : c.pwmMin ≤ b.pw.toInt)
    (hi : b.pw.toInt ≤ c.pwmMax) : (toWord (holdRequest c b)).toInt = b.pw.toInt + c.pulseOffset := by
  obtain ⟨-, -, -, hmin, -, -, -, hoff, hmax, -⟩ := wellFormed_bounds hw
  exact toInt_toWord (by rw [minSigned_eq, holdRequest]; omega) ((Int.add_le_add_right hi _).trans hmax)

/-- Settles O27: the value loaded is the request, which `rem` holds for `PW` in range. -/
theorem pulseStartRaisesServoAndSamples : Obligations.PulseStartRaisesServoAndSamples := by
  intro c s hw
  have start := enabled_pulseStart c s.block
  refine ⟨(mem_decodeSel_instr hw s.block .pulseStart).trans start, fun hp ht => ?_⟩
  obtain ⟨t, ht, run⟩ := runs_of_enabled hw (start.2 ⟨hp, ht⟩) rfl
  exact ⟨toWord (holdRequest c s.block), t, toInt_toWord_holdRequest hw, ht, run⟩

/-- R80, R81: a wait of `n` of the units left. -/
theorem startWait_runs {c : Config} {i : Instr} {s : State} {n : Nat} (hw : c.WellFormed)
    (he : enabled c s.block i = true) (heff : effectOf i c s.block = s.block.startWait n)
    (hn : (n : Int) ≤ s.block.rem.toInt) :
    ∃ (r : Word) (t : State), r.toInt = s.block.rem.toInt - n ∧
      t = { s with block := { s.block with wait := n, rem := r } } ∧
      execUnder c i s = .next t ∧ (c = Config.built → exec i s = .next t) := by
  obtain ⟨t, ht, run⟩ := runs_of_enabled hw he heff
  exact ⟨toWord (s.block.rem.toInt - n), t, toInt_rem_heldFor hn, ht, run⟩

/-- Settles O28: a wait of `CHUNK` units. -/
theorem holdChunkStartsAChunkWait : Obligations.HoldChunkStartsAChunkWait := by
  intro c s hw
  have chunk := enabled_holdChunk c s.block
  exact ⟨(mem_decodeSel_instr hw s.block .holdChunk).trans chunk,
    fun hp hwait hge => startWait_runs hw (chunk.2 ⟨hp, hwait, hge⟩) rfl hge⟩

/-- Settles O29: a wait of one unit. -/
theorem holdUnitStartsAUnitWait : Obligations.HoldUnitStartsAUnitWait := by
  intro c s hw
  have unit := enabled_holdUnit c s.block
  exact ⟨(mem_decodeSel_instr hw s.block .holdUnit).trans unit,
    fun hp hwait hpos hlt => startWait_runs hw (unit.2 ⟨hp, hwait, hpos, hlt⟩) rfl hpos⟩

/-- Settles O30: in a state of the invariant the count is not negative either. -/
theorem pulseEndLowersServoAndReturns : Obligations.PulseEndLowersServoAndReturns := by
  intro c s hw
  have ended := enabled_pulseEnd c s.block
  exact ⟨(mem_decodeSel_instr hw s.block .pulseEnd).trans ended, fun hp hwait hle =>
    ⟨runs_of_enabled hw (ended.2 ⟨hp, hwait, hle⟩) rfl, fun h => le_antisymm hle h.block.rem_nonneg⟩⟩

/-! The single counter (R91) -/

theorem toCounter_latchStep (b : Block) (d : Level) :
    (b.latchStep d).toCounter =
      if b.stepPend then b.toCounter else { b.toCounter with stepPend := true, dirLat := d } := by
  by_cases hs : b.stepPend = true
  · rw [if_pos hs, latchStep_of_pending hs]
  · rw [if_neg hs, Block.latchStep, if_neg hs]
    rfl

/-- A wait operation moves units from `rem` to `wait`: the counter does not see it. -/
theorem toCounter_startWait {b : Block} (hwait : b.wait = 0) {n : Nat} (hn : (n : Int) ≤ b.rem.toInt) :
    (b.startWait n).toCounter = b.toCounter := by
  have hrem : (b.startWait n).rem.toInt = b.rem.toInt - n := toInt_rem_heldFor hn
  simp only [Block.toCounter, hrem, hwait, Block.startWait_wait]
  simp

/-- Every operation enabled in a state of the invariant is the same operation of the counter. -/
theorem toCounter_effectOf {c : Config} {b : Block} (hw : c.WellFormed) (h : b.Inv c) {i : Instr}
    (he : enabled c b i = true) : (effectOf i c b).toCounter = b.toCounter.apply c i := by
  obtain ⟨-, -, -, -, -, -, hchunk, -⟩ := wellFormed_bounds hw
  cases i with
  | reset | stepDec | stepInc | pulseEnd | reservedUnreachable => rfl
  | edge0 => exact toCounter_latchStep b false
  | edge1 => exact toCounter_latchStep b true
  | pulseStart =>
    have hrem := h.toInt_toWord_holdRequest hw
    simp [effectOf, Block.toCounter, CounterBlock.apply, hrem]
  | timeIdle =>
    obtain ⟨hp, -, -⟩ := (enabled_timeIdle c b).1 he
    simp [effectOf, Block.toCounter, CounterBlock.apply, CounterBlock.tickTimer, hp]
  | timeWait =>
    obtain ⟨hp, hwait⟩ := (enabled_timeWait c b).1 he
    simp [effectOf, Block.toCounter, CounterBlock.apply, CounterBlock.tickTimer, hp]
    omega
  | holdChunk =>
    obtain ⟨-, hwait, hge⟩ := (enabled_holdChunk c b).1 he
    exact toCounter_startWait hwait hge
  | holdUnit =>
    obtain ⟨-, hwait, hpos, -⟩ := (enabled_holdUnit c b).1 he
    exact toCounter_startWait hwait hpos

theorem counter_enabled_timeWait (c : Config) (b : Block) :
    b.toCounter.enabled c .timeWait = true ↔ b.phase = .hold ∧ 0 < b.rem.toInt + b.wait := by
  rw [CounterBlock.enabled, Bool.and_eq_true, beq_iff_eq, decide_eq_true_iff]
  rfl

theorem counter_enabled_pulseEnd (c : Config) (b : Block) :
    b.toCounter.enabled c .pulseEnd = true ↔ b.phase = .hold ∧ b.rem.toInt + b.wait ≤ 0 := by
  rw [CounterBlock.enabled, Bool.and_eq_true, beq_iff_eq, decide_eq_true_iff]
  rfl

/-- What the block enables the counter enables, but for the wait operations. -/
theorem counter_enabled_of_enabled {c : Config} {b : Block} (h : b.Inv c) {i : Instr} (he : enabled c b i = true) :
    i = .holdChunk ∨ i = .holdUnit ∨ b.toCounter.enabled c i = true := by
  cases i with
  | holdChunk => exact .inl rfl
  | holdUnit => exact .inr (.inl rfl)
  | timeWait =>
    obtain ⟨hp, hwait⟩ := (enabled_timeWait c b).1 he
    have hrem := h.rem_nonneg
    exact .inr (.inr ((counter_enabled_timeWait c b).2 ⟨hp, by omega⟩))
  | pulseEnd =>
    obtain ⟨hp, hwait, hle⟩ := (enabled_pulseEnd c b).1 he
    exact .inr (.inr ((counter_enabled_pulseEnd c b).2 ⟨hp, by omega⟩))
  | _ => exact .inr (.inr he)

/-- At the end of a wait with units left the block starts a wait of some of them, and then lets time pass. -/
theorem timeWait_after_wait_operation {c : Config} {s : State} (hw : c.WellFormed) (hp : s.block.phase = .hold)
    (hwait : s.block.wait = 0) (hrem : 0 < s.block.rem.toInt) :
    ∃ j t u, (j = Instr.holdChunk ∨ j = .holdUnit) ∧ execUnder c j s = .next t ∧
      execUnder c .timeWait t = .next u := by
  obtain ⟨-, -, -, -, -, -, hchunk, -⟩ := wellFormed_bounds hw
  have waiting : ∀ {n : Nat}, 1 ≤ n → enabled c (s.block.startWait n) .timeWait = true :=
    fun hn => (enabled_timeWait c _).2 ⟨hp, hn⟩
  by_cases hge : (c.chunk : Int) ≤ s.block.rem.toInt
  · exact ⟨.holdChunk, _, _, .inl rfl, execUnder_of_enabled hw ((enabled_holdChunk c s.block).2 ⟨hp, hwait, hge⟩),
      execUnder_of_enabled hw (waiting hchunk)⟩
  · exact ⟨.holdUnit, _, _, .inr rfl,
      execUnder_of_enabled hw ((enabled_holdUnit c s.block).2 ⟨hp, hwait, hrem, not_le.1 hge⟩),
      execUnder_of_enabled hw (waiting le_rfl)⟩

/-- What the counter enables the block enables, at once or after one wait operation. -/
theorem execUnder_of_counter_enabled {c : Config} {s : State} (h : s.Inv c) {i : Instr}
    (he : s.block.toCounter.enabled c i = true) :
    (∃ t, execUnder c i s = .next t) ∨
      ∃ j t u, (j = .holdChunk ∨ j = .holdUnit) ∧ execUnder c j s = .next t ∧ execUnder c i t = .next u := by
  have hw := h.wellFormed
  have atOnce : ∀ {i : Instr}, enabled c s.block i = true → ∃ t, execUnder c i s = .next t :=
    fun he => ⟨_, execUnder_of_enabled hw he⟩
  cases i with
  | holdChunk | holdUnit | reservedUnreachable => cases he
  | timeWait =>
    obtain ⟨hp, hpos⟩ := (counter_enabled_timeWait c s.block).1 he
    by_cases hwait : 0 < s.block.wait
    · exact .inl (atOnce ((enabled_timeWait c s.block).2 ⟨hp, hwait⟩))
    · exact .inr (timeWait_after_wait_operation hw hp (by omega) (by omega))
  | pulseEnd =>
    obtain ⟨hp, hle⟩ := (counter_enabled_pulseEnd c s.block).1 he
    have hrem := h.block.rem_nonneg
    exact .inl (atOnce ((enabled_pulseEnd c s.block).2 ⟨hp, by omega, by omega⟩))
  | _ => exact .inl (atOnce he)

/-- Settles O51: the counter `rem + wait` follows each operation, and is positive exactly while time is to pass. -/
theorem singleHoldCounterSimulatesTheBlock : Obligations.SingleHoldCounterSimulatesTheBlock := by
  intro c s h
  refine ⟨fun i t hst => ?_, fun i he => execUnder_of_counter_enabled h he⟩
  obtain ⟨hw, he, rfl⟩ := (execUnder_eq_next_iff c i s t).1 hst
  exact ⟨toCounter_effectOf hw h.block he, counter_enabled_of_enabled h.block he⟩

end Sys2Proof.Machine
end

section
/-! Runs and the period timer (41_pwm_generator.md): every step as a function of the state, no tick missed (R88), the
units from one pulse to the next (R78, R86), the wait of a step request (R89, R118). -/

namespace Sys2Proof.Machine

/-! The next state -/

/-- R52, by the bits of the word. -/
theorem decodeStim_bits : ∀ w : Stim3, decodeStim w =
    if w.getLsbD 2 then some .reset else if w.getLsbD 1 then some (edgeAt (w.getLsbD 0)) else none := by
  decide

theorem enabled_of_decodeStim {w : Stim3} {i : Instr} (h : decodeStim w = some i) (c : Config) (b : Block) :
    enabled c b i = true := by
  rw [decodeStim_bits] at h
  split_ifs at h
  · cases h; rfl
  · cases h; exact enabled_edgeAt c b _

/-- What a selection word enables is enabled, and is none of the environment's. -/
theorem of_mem_decodeSel {c : Config} (hw : c.WellFormed) {b : Block} {i : Instr} (h : i ∈ decodeSel (sel7 c b)) :
    enabled c b i = true ∧ i.agent ≠ some .env := by
  rw [decodeSel_eq_dueOps hw] at h
  split_ifs at h with hdue
  · obtain rfl := List.mem_singleton.1 h
    refine ⟨(dueOps_eq_nil_iff_timeOp hw b).1 hdue, ?_⟩
    unfold timeOp
    cases b.phase <;> nofun
  · obtain ⟨o, ho, rfl⟩ := List.mem_map.1 h
    exact ⟨(mem_dueOps c b o).1 ho, by rw [o.agent_instr]; nofun⟩

/-- R110: the operation a step selects is enabled. -/
theorem enabled_selected {c : Config} (hw : c.WellFormed) (s : State) : enabled c s.block (s.selected c) = true := by
  cases hstim : decodeStim s.stimulus with
  | none => exact (of_mem_decodeSel hw (selected_mem_candidates hstim)).1
  | some i =>
    rw [selected_of_stimulus hstim]
    exact enabled_of_decodeStim hstim c s.block

/-- The state after one step under a well-formed configuration. -/
def State.after (c : Config) (s : State) : State :=
  { s.consume c with block := effectOf (s.selected c) c s.block }

@[simp] theorem State.after_block (c : Config) (s : State) :
    (s.after c).block = effectOf (s.selected c) c s.block := rfl

@[simp] theorem State.after_inputs (c : Config) (s : State) : (s.after c).inputs = s.inputs.tail := rfl

theorem stepUnder_eq_after {c : Config} (hw : c.WellFormed) (s : State) : stepUnder c s = .next (s.after c) :=
  (stepUnder_eq_next_iff c s _).2 ⟨hw, enabled_selected hw s, rfl⟩

theorem State.Inv.after {c : Config} {s : State} (h : s.Inv c) : (s.after c).Inv c :=
  stepUnder_inv h (stepUnder_eq_after h.wellFormed s)

section Runs

variable {c : Config} (hw : c.WellFormed)
include hw

theorem operations_succ (n : Nat) (s : State) :
    operations c (n + 1) s = s.selected c :: operations c n (s.after c) :=
  operations_succ_of_next (stepUnder_eq_after hw s) n

theorem unitsElapsed_succ (n : Nat) (s : State) :
    unitsElapsed c (n + 1) s = unitsElapsed c n (s.after c) + if (s.selected c).isTime then 1 else 0 := by
  rw [unitsElapsed, operations_succ hw, List.countP_cons]
  rfl

/-- A run whose operations are known, taken apart at its first step. -/
theorem operations_eq_cons {n : Nat} {s : State} {i : Instr} {is : List Instr} (h : operations c n s = i :: is) :
    s.selected c = i ∧ ∃ m, n = m + 1 ∧ operations c m (s.after c) = is := by
  cases n with
  | zero => cases h
  | succ m =>
    rw [operations_succ hw, List.cons.injEq] at h
    exact ⟨h.1, m, rfl, h.2⟩

end Runs

/-- Where no reset is listed, a step reads an edge or takes an operation of the block's own. -/
theorem selected_cases {c : Config} {s : State} (hin : ∀ w ∈ s.inputs, w.getLsbD 2 = false) :
    (∃ w rest, s.inputs = w :: rest ∧ w.getLsbD 1 = true ∧ decodeStim s.stimulus = some (edgeAt (w.getLsbD 0)) ∧
      s.selected c = edgeAt (w.getLsbD 0)) ∨
    (s.stimulus.getLsbD 1 = false ∧ decodeStim s.stimulus = none ∧ s.selected c ∈ s.candidates c) := by
  have own : s.stimulus.getLsbD 2 = false → s.stimulus.getLsbD 1 = false →
      s.stimulus.getLsbD 1 = false ∧ decodeStim s.stimulus = none ∧ s.selected c ∈ s.candidates c := by
    intro hrst hedge
    have hstim : decodeStim s.stimulus = none := by rw [decodeStim_bits, hrst, hedge]; rfl
    exact ⟨hedge, hstim, selected_mem_candidates hstim⟩
  cases hws : s.inputs with
  | nil =>
    have hword : s.stimulus = 0b000#3 := by rw [State.stimulus, hws]; rfl
    exact .inr (own (by rw [hword]; decide) (by rw [hword]; decide))
  | cons w rest =>
    have hword : s.stimulus = w := by rw [State.stimulus, hws]; rfl
    have hrst : w.getLsbD 2 = false := hin w (by rw [hws]; exact List.mem_cons_self)
    cases hedge : w.getLsbD 1 with
    | false => exact .inr (own (by rwa [hword]) (by rwa [hword]))
    | true =>
      have hstim : decodeStim s.stimulus = some (edgeAt (w.getLsbD 0)) := by
        rw [hword, decodeStim_bits, hrst, hedge]; rfl
      exact .inl ⟨w, rest, rfl, hedge, hstim, selected_of_stimulus hstim⟩

/-! No tick is missed (R88) -/

theorem isTime_cases {i : Instr} (h : i.isTime = true) : i = .timeIdle ∨ i = .timeWait := by
  cases i with
  | timeIdle => exact .inl rfl
  | timeWait => exact .inr rfl
  | _ => cases h

theorem effectOf_of_isTime {i : Instr} (h : i.isTime = true) (c : Config) (b : Block) :
    effectOf i c b = b.elapse c := by
  rcases isTime_cases h with rfl | rfl <;> rfl

section Tick

variable {c : Config} {b : Block} {i : Instr}

/-- R88: time passes only with no tick pending. -/
theorem Block.Inv.no_tick_of_isTime (h : b.Inv c) (he : enabled c b i = true) (hi : i.isTime = true) :
    b.tickPend = false := by
  rcases isTime_cases hi with rfl | rfl
  · obtain ⟨-, ht, -⟩ := (enabled_timeIdle c b).1 he
    exact ht
  · obtain ⟨hp, -⟩ := (enabled_timeWait c b).1 he
    exact h.hold_no_tick hp

/-- R88: the timer wraps only in `IDLE`, for a hold ends before. -/
theorem Block.Inv.idle_of_wrap (h : b.Inv c) (hw : c.WellFormed) (he : enabled c b i = true) (hi : i.isTime = true)
    (hwrap : b.tcnt + 1 = c.period) : b.phase = .idle := by
  rcases isTime_cases hi with rfl | rfl
  · obtain ⟨hp, -⟩ := (enabled_timeIdle c b).1 he
    exact hp
  · obtain ⟨hp, hwait⟩ := (enabled_timeWait c b).1 he
    exact absurd hwrap (h.tcnt_succ_lt_period hw hp hwait).ne

end Tick

/-- Settles O45: the operation selected is enabled, and the invariant says what that leaves. -/
theorem noTickIsEverMissed : Obligations.NoTickIsEverMissed := by
  intro c s t h hst
  obtain ⟨hw, he, rfl⟩ := (stepUnder_eq_next_iff c s t).1 hst
  refine ⟨h.block.no_tick_of_isTime he, fun hi hwrap => ?_, fun hsel => ?_⟩
  · rw [effectOf_of_isTime hi, Block.elapse_tickPend, Block.elapse_tcnt, if_pos hwrap, if_pos hwrap]
    exact ⟨h.block.idle_of_wrap hw he hi hwrap, rfl, rfl⟩
  · rw [hsel] at he
    obtain ⟨hp, ht⟩ := (enabled_pulseStart c s.block).1 he
    exact h.block.tick_fresh hp ht

/-! From one pulse to the next (R78, R86) -/

/-- The units since the timer last left 0 with no tick pending: what it counts, and a whole period once its tick is
pending. -/
def Block.sinceTick (c : Config) (b : Block) : Nat := if b.tickPend then c.period else b.tcnt

section SinceTick

variable {c : Config} {b : Block} {i : Instr}

theorem Block.Inv.sinceTick_le (h : b.Inv c) : b.sinceTick c ≤ c.period := by
  have hlt := h.tcnt_lt_period
  unfold Block.sinceTick
  split_ifs <;> omega

/-- A `PULSE_START` or a `RESET` leaves the timer at 0 and no tick pending. -/
theorem sinceTick_of_start (h : b.Inv c) (he : enabled c b i = true) (hi : i ∈ [Instr.pulseStart, .reset]) :
    (effectOf i c b).sinceTick c = 0 := by
  simp only [List.mem_cons, List.not_mem_nil, or_false] at hi
  rcases hi with rfl | rfl
  · obtain ⟨hp, ht⟩ := (enabled_pulseStart c b).1 he
    exact h.tick_fresh hp ht
  · rfl

/-- Between them the count grows with the units alone. -/
theorem sinceTick_effectOf (h : b.Inv c) (he : enabled c b i = true) (hi : i ∉ [Instr.pulseStart, .reset]) :
    (effectOf i c b).sinceTick c = b.sinceTick c + if i.isTime then 1 else 0 := by
  cases htime : i.isTime with
  | true =>
    have ht := h.no_tick_of_isTime he htime
    rw [effectOf_of_isTime htime, Block.sinceTick, Block.sinceTick, Block.elapse_tickPend, Block.elapse_tcnt, ht]
    by_cases hwrap : b.tcnt + 1 = c.period <;> simp [hwrap]
  | false =>
    have hnot : i ∉ [Instr.reset, .timeIdle, .timeWait, .pulseStart] := by
      cases i with
      | reset | pulseStart => simp at hi
      | timeIdle | timeWait => cases htime
      | _ => decide
    have hnot' : i ∉ [Instr.reset, .timeIdle, .timeWait] := fun hmem => hnot (List.mem_append_left [_] hmem)
    rw [Block.sinceTick, effectOf_tickPend_of_not_writer c b hnot, effectOf_tcnt_of_not_writer c b hnot']
    rfl

end SinceTick

/-- R86: up to the next `PULSE_START`, no other and no `RESET` before it, the rest of the period passes. -/
theorem unitsElapsed_to_pulseStart {c : Config} {between : List Instr} {n : Nat} {s : State} (h : s.Inv c)
    (hops : operations c n s = between ++ [.pulseStart]) (hbetween : ∀ j ∈ between, j ∉ [Instr.pulseStart, .reset]) :
    s.block.sinceTick c + unitsElapsed c n s = c.period := by
  have hw := h.wellFormed
  have he := enabled_selected hw s
  induction between generalizing n s with
  | nil =>
    obtain ⟨hsel, m, rfl, hrest⟩ := operations_eq_cons hw hops
    rw [hsel] at he
    obtain ⟨-, ht⟩ := (enabled_pulseStart c s.block).1 he
    rw [unitsElapsed_succ hw, unitsElapsed, hrest, hsel, Block.sinceTick, if_pos ht]
    rfl
  | cons j between ih =>
    obtain ⟨hsel, m, rfl, hrest⟩ := operations_eq_cons hw hops
    obtain ⟨hj, hbetween⟩ := List.forall_mem_cons.1 hbetween
    have rest := ih h.after hrest hbetween (enabled_selected hw _)
    rw [State.after_block, hsel, sinceTick_effectOf h.block (hsel ▸ he) hj] at rest
    rw [unitsElapsed_succ hw, hsel]
    omega

theorem isTime_of_start {i : Instr} (hi : i ∈ [Instr.pulseStart, .reset]) : i.isTime = false := by
  simp only [List.mem_cons, List.not_mem_nil, or_false] at hi
  rcases hi with rfl | rfl <;> rfl

/-- R86, R88: from a `PULSE_START` or a `RESET` to the next `PULSE_START`. -/
theorem unitsElapsed_of_period {c : Config} {s : State} {n : Nat} {i : Instr} {between : List Instr} (h : s.Inv c)
    (hi : i ∈ [Instr.pulseStart, .reset]) (hops : operations c n s = i :: between ++ [.pulseStart])
    (hbetween : ∀ j ∈ between, j ∉ [Instr.pulseStart, .reset]) : unitsElapsed c n s = c.period := by
  have hw := h.wellFormed
  obtain ⟨hsel, m, rfl, hrest⟩ := operations_eq_cons hw hops
  have rest := unitsElapsed_to_pulseStart h.after hrest hbetween
  rw [State.after_block, hsel, sinceTick_of_start h.block (hsel ▸ enabled_selected hw s) hi, Nat.zero_add] at rest
  rw [unitsElapsed_succ hw, hsel, isTime_of_start hi, rest]
  rfl

/-! The next pulse comes -/

/-- A bound on the operations of the block before its next `PULSE_START`, while nothing new comes. -/
def Block.startBudget (c : Config) (b : Block) : Nat :=
  (c.period - b.sinceTick c) + b.rem.toInt.toNat + (b.phase == .hold).toNat + b.stepPend.toNat

/-- Each operation of the block's own uses some of it up. -/
theorem startBudget_effectOf_lt {c : Config} {b : Block} {i : Instr} (hw : c.WellFormed) (h : b.Inv c)
    (he : enabled c b i = true) (henv : i.agent ≠ some .env) (hi : i ≠ .pulseStart) :
    (effectOf i c b).startBudget c < b.startBudget c := by
  obtain ⟨-, -, -, -, -, -, hchunk, -⟩ := wellFormed_bounds hw
  have hreset : i ≠ .reset := by rintro rfl; exact henv rfl
  have hsince := sinceTick_effectOf h he (by simp [hi, hreset])
  have hle := (h.effectOf hw he).sinceTick_le
  cases htime : i.isTime with
  | true =>
    rw [htime, if_pos rfl] at hsince
    rw [hsince] at hle
    rw [Block.startBudget, Block.startBudget, hsince, effectOf_of_isTime htime, Block.elapse_rem, Block.elapse_phase,
      Block.elapse_stepPend]
    omega
  | false =>
    rw [htime, if_neg Bool.false_ne_true, Nat.add_zero] at hsince
    have waits : ∀ {n : Nat}, 1 ≤ n → (n : Int) ≤ b.rem.toInt →
        (toWord (b.rem.toInt - n)).toInt.toNat < b.rem.toInt.toNat := by
      intro n hn hrem
      have hleft : (toWord (b.rem.toInt - n)).toInt = b.rem.toInt - n := toInt_rem_heldFor hrem
      omega
    rw [Block.startBudget, Block.startBudget, hsince]
    cases i with
    | reset | edge0 | edge1 => exact absurd rfl henv
    | pulseStart => exact absurd rfl hi
    | timeIdle | timeWait => cases htime
    | reservedUnreachable => cases he
    | stepDec =>
      obtain ⟨-, hs, -⟩ := (enabled_stepDec c b).1 he
      simp [effectOf, hs]
    | stepInc =>
      obtain ⟨-, hs, -⟩ := (enabled_stepInc c b).1 he
      simp [effectOf, hs]
    | holdChunk =>
      obtain ⟨-, -, hge⟩ := (enabled_holdChunk c b).1 he
      simpa [effectOf] using waits hchunk hge
    | holdUnit =>
      obtain ⟨-, -, hpos, -⟩ := (enabled_holdUnit c b).1 he
      simpa [effectOf] using waits le_rfl hpos
    | pulseEnd =>
      obtain ⟨hp, -, -⟩ := (enabled_pulseEnd c b).1 he
      simp [effectOf, hp]

/-- An edge adds at most the step operation it asks for. -/
theorem startBudget_edge_le (c : Config) (b : Block) (d : Level) :
    (effectOf (edgeAt d) c b).startBudget c ≤ b.startBudget c + 1 := by
  rw [effectOf_edgeAt]
  have hone : (b.latchStep d).stepPend.toNat = 1 := rfl
  have hsame : (b.latchStep d).sinceTick c = b.sinceTick c := rfl
  rw [Block.startBudget, Block.startBudget, hone, hsame, Block.latchStep_rem, Block.latchStep_phase]
  omega

theorem edgeAt_not_start (d : Level) : edgeAt d ∉ [Instr.pulseStart, .reset] := by cases d <;> decide

/-- R88: the next `PULSE_START` comes, for the listed edges run out. -/
theorem exists_pulseStart {c : Config} {s : State} (h : s.Inv c) (hin : ∀ w ∈ s.inputs, w.getLsbD 2 = false) :
    ∃ (n : Nat) (between : List Instr), operations c n s = between ++ [.pulseStart] ∧
      ∀ j ∈ between, j ∉ [Instr.pulseStart, .reset] := by
  have hw := h.wellFormed
  by_cases hstart : s.selected c = .pulseStart
  · exact ⟨1, [], by rw [operations_succ hw, hstart]; rfl, nofun⟩
  have first : s.selected c ∉ [Instr.pulseStart, .reset] ∧
      2 * s.inputs.tail.length + (s.after c).block.startBudget c <
        2 * s.inputs.length + s.block.startBudget c := by
    rcases selected_cases (c := c) hin with ⟨w, rest, hws, -, -, hsel⟩ | ⟨-, -, hmem⟩
    · have hle := startBudget_edge_le c s.block (w.getLsbD 0)
      rw [State.after_block, hsel, hws, List.tail_cons, List.length_cons]
      exact ⟨edgeAt_not_start _, by omega⟩
    · obtain ⟨he, henv⟩ := of_mem_decodeSel hw hmem
      have hlt := startBudget_effectOf_lt hw h.block he henv hstart
      have hreset : s.selected c ≠ .reset := by intro hr; rw [hr] at henv; exact henv rfl
      rw [State.after_block, List.length_tail]
      exact ⟨by simp [hstart, hreset], by omega⟩
  obtain ⟨n, between, hops, hbetween⟩ := exists_pulseStart h.after fun w hw => hin w (List.mem_of_mem_tail hw)
  exact ⟨n + 1, s.selected c :: between, by rw [operations_succ hw, hops]; rfl,
    List.forall_mem_cons.2 ⟨first.1, hbetween⟩⟩
termination_by 2 * s.inputs.length + s.block.startBudget c
decreasing_by exact first.2

/-- R78, R86: after a `PULSE_START` or a `RESET`, the next `PULSE_START` comes, and comes a period later. -/
theorem exists_period {c : Config} {s : State} (h : s.Inv c) (hsel : s.selected c ∈ [Instr.pulseStart, .reset])
    (hin : ∀ w ∈ s.inputs.tail, w.getLsbD 2 = false) :
    ∃ (n : Nat) (between : List Instr), operations c n s = s.selected c :: between ++ [.pulseStart] ∧
      (∀ j ∈ between, j ∉ [Instr.pulseStart, .reset]) ∧ unitsElapsed c n s = c.period := by
  obtain ⟨n, between, hops, hbetween⟩ := exists_pulseStart h.after hin
  have hops' : operations c (n + 1) s = s.selected c :: between ++ [.pulseStart] := by
    rw [operations_succ h.wellFormed, hops]
    rfl
  exact ⟨n + 1, between, hops', hbetween, unitsElapsed_of_period h hsel hops' hbetween⟩

/-! The wait of a step request (R89, R118) -/

/-- The units that pass before a pending step request can be served, the tick winning where it is pending too. -/
def Block.stepDelay (c : Config) (b : Block) : Int :=
  match b.phase with
  | .idle => if b.tickPend then holdRequest c b else 0
  | .hold => b.rem.toInt + b.wait

section StepDelay

variable {c : Config} {b : Block}

theorem stepDelay_of_idle (hp : b.phase = .idle) :
    b.stepDelay c = if b.tickPend then holdRequest c b else 0 := by
  simp only [Block.stepDelay, hp]

theorem stepDelay_of_hold (hp : b.phase = .hold) : b.stepDelay c = b.rem.toInt + b.wait := by
  simp only [Block.stepDelay, hp]

theorem Block.Inv.stepDelay_bounds (h : b.Inv c) (hw : c.WellFormed) :
    0 ≤ b.stepDelay c ∧ b.stepDelay c ≤ c.pwmMax + c.pulseOffset := by
  obtain ⟨-, hlt, -, hmin, -, -, -, hoff, -⟩ := wellFormed_bounds hw
  have lo := h.pw_ge_min
  have hi := h.pw_le_max
  cases hp : b.phase with
  | idle =>
    rw [stepDelay_of_idle hp, holdRequest]
    split_ifs <;> omega
  | hold =>
    have hends := h.hold_ends hp
    have hrem := h.rem_nonneg
    rw [stepDelay_of_hold hp]
    omega

/-- While the request waits it stays pending, and its delay shrinks by each unit that passes. -/
theorem stepDelay_effectOf {i : Instr} (h : b.Inv c) (hw : c.WellFormed) (hs : b.stepPend = true)
    (he : enabled c b i = true) (hi : i ∉ [Instr.reset, .stepDec, .stepInc]) :
    (effectOf i c b).stepPend = true ∧
      (effectOf i c b).stepDelay c + (if i.isTime then 1 else 0) = b.stepDelay c := by
  cases i with
  | reset | stepDec | stepInc => simp at hi
  | reservedUnreachable => cases he
  | edge0 | edge1 => exact ⟨rfl, by simp [effectOf, latchStep_of_pending hs, Instr.isTime, Instr.agent]⟩
  | pulseStart =>
    obtain ⟨hp, ht⟩ := (enabled_pulseStart c b).1 he
    have hrem : (toWord (holdRequest c b)).toInt = holdRequest c b := h.toInt_toWord_holdRequest hw
    rw [stepDelay_of_idle hp, if_pos ht, stepDelay_of_hold (b := effectOf .pulseStart c b) rfl]
    exact ⟨hs, by simp [effectOf, hrem, Instr.isTime, Instr.agent]⟩
  | timeIdle =>
    obtain ⟨-, -, hs'⟩ := (enabled_timeIdle c b).1 he
    rw [hs] at hs'
    cases hs'
  | timeWait =>
    obtain ⟨hp, hwait⟩ := (enabled_timeWait c b).1 he
    rw [stepDelay_of_hold hp, stepDelay_of_hold (b := effectOf .timeWait c b) hp]
    refine ⟨hs, ?_⟩
    simp only [effectOf, Instr.isTime, Instr.agent, Block.elapse_rem, Block.elapse_wait, if_pos hp, beq_self_eq_true,
      if_true]
    omega
  | holdChunk =>
    obtain ⟨hp, hwait, hge⟩ := (enabled_holdChunk c b).1 he
    have hleft : (toWord (b.rem.toInt - c.chunk)).toInt = b.rem.toInt - c.chunk := toInt_rem_heldFor hge
    rw [stepDelay_of_hold hp, stepDelay_of_hold (b := effectOf .holdChunk c b) hp]
    exact ⟨hs, by simp [effectOf, hleft, hwait, Instr.isTime, Instr.agent]⟩
  | holdUnit =>
    obtain ⟨hp, hwait, hpos, -⟩ := (enabled_holdUnit c b).1 he
    have hleft : (toWord (b.rem.toInt - 1)).toInt = b.rem.toInt - 1 := toInt_rem_heldFor hpos
    rw [stepDelay_of_hold hp, stepDelay_of_hold (b := effectOf .holdUnit c b) hp]
    exact ⟨hs, by simp [effectOf, hleft, hwait, Instr.isTime, Instr.agent]⟩
  | pulseEnd =>
    obtain ⟨hp, hwait, hle⟩ := (enabled_pulseEnd c b).1 he
    have hrem : b.rem.toInt = 0 := le_antisymm hle h.rem_nonneg
    rw [stepDelay_of_hold hp, stepDelay_of_idle (b := effectOf .pulseEnd c b) rfl]
    exact ⟨hs, by simp [effectOf, h.hold_no_tick hp, hrem, hwait, Instr.isTime, Instr.agent]⟩

end StepDelay

/-- R89: no more units pass than the request's delay. -/
theorem unitsElapsed_le_stepDelay {c : Config} (n : Nat) {s : State} (h : s.Inv c) (hs : s.block.stepPend = true)
    (hops : ∀ i ∈ operations c n s, i ∉ [Instr.reset, .stepDec, .stepInc]) :
    (unitsElapsed c n s : Int) ≤ s.block.stepDelay c := by
  have hw := h.wellFormed
  induction n generalizing s with
  | zero => exact (h.block.stepDelay_bounds hw).1
  | succ n ih =>
    rw [operations_succ hw] at hops
    obtain ⟨hi, hrest⟩ := List.forall_mem_cons.1 hops
    obtain ⟨hpending, hdelay⟩ := stepDelay_effectOf h.block hw hs (enabled_selected hw s) hi
    have rest := ih h.after hpending hrest
    rw [State.after_block] at rest
    rw [unitsElapsed_succ hw, ← hdelay]
    push_cast
    omega

/-- Settles O48: the delay of a pending request is at most the longest hold. -/
theorem stepLatencyIsAtMostTheLongestHold : Obligations.StepLatencyIsAtMostTheLongestHold := by
  intro c s t n h hs _ hops
  exact (unitsElapsed_le_stepDelay n h hs hops).trans (h.block.stepDelay_bounds h.wellFormed).2

end Sys2Proof.Machine
end

section
/-! The whole pulse (41_pwm_generator.md): the operations a hold still takes (R83, R84), a run to `PULSE_END` with edges
between them (R101), what the environment observes of it (R85, R125), and its return a period later (R86). -/

namespace Sys2Proof.Machine

/-! The operations of a hold (R84) -/

/-- The operations of a hold with `d` units left, from the end of a wait to `PULSE_END`. -/
def holdOps (c : Config) (d : Nat) : List Instr :=
  (List.replicate (d / c.chunk) (Instr.holdChunk :: List.replicate c.chunk .timeWait)).flatten ++
    (List.replicate (d % c.chunk) [Instr.holdUnit, .timeWait]).flatten

/-- The operations a block in a hold takes up to `PULSE_END`: the running wait first. -/
def Block.holdRest (c : Config) (b : Block) : List Instr :=
  List.replicate b.wait .timeWait ++ holdOps c b.rem.toInt.toNat

section HoldOps

variable {c : Config} {d : Nat}

theorem holdOps_zero (c : Config) : holdOps c 0 = [] := by simp [holdOps]

theorem holdOps_of_chunk_le (hchunk : 1 ≤ c.chunk) (hd : c.chunk ≤ d) :
    holdOps c d = .holdChunk :: (List.replicate c.chunk .timeWait ++ holdOps c (d - c.chunk)) := by
  rw [holdOps, holdOps, Nat.div_eq_sub_div hchunk hd, Nat.mod_eq_sub_mod hd, List.replicate_succ, List.flatten_cons,
    List.append_assoc, List.cons_append]

theorem holdOps_of_lt_chunk (hpos : 0 < d) (hd : d < c.chunk) :
    holdOps c d = .holdUnit :: .timeWait :: holdOps c (d - 1) := by
  obtain ⟨r, rfl⟩ := Nat.exists_eq_add_one_of_ne_zero hpos.ne'
  have hr : r < c.chunk := by omega
  simp [holdOps, Nat.div_eq_of_lt hd, Nat.mod_eq_of_lt hd, Nat.div_eq_of_lt hr, Nat.mod_eq_of_lt hr,
    List.replicate_succ]

theorem mem_holdOps {i : Instr} (h : i ∈ holdOps c d) : i = .holdChunk ∨ i = .holdUnit ∨ i = .timeWait := by
  simp only [holdOps, List.mem_append, List.mem_flatten, List.mem_replicate] at h
  rcases h with ⟨_, ⟨-, rfl⟩, hi⟩ | ⟨_, ⟨-, rfl⟩, hi⟩
  · rcases List.mem_cons.1 hi with rfl | hi
    · exact .inl rfl
    · exact .inr (.inr (List.eq_of_mem_replicate hi))
  · simp only [List.mem_cons, List.not_mem_nil, or_false] at hi
    exact .inr hi

/-- The count as `List.count` defines it. -/
theorem count_holdOps {i : Instr} (hi : i ∉ [Instr.holdChunk, .holdUnit, .timeWait]) :
    (holdOps c d).countP (· == i) = 0 := by
  refine List.countP_eq_zero.2 fun j hj hji => hi ?_
  obtain rfl := eq_of_beq hji
  simpa using mem_holdOps hj

theorem length_holdOps (c : Config) (d : Nat) :
    (holdOps c d).length = d / c.chunk * (1 + c.chunk) + 2 * (d % c.chunk) := by
  simp [holdOps, Nat.add_comm, Nat.mul_comm]

theorem countP_holdOps (p : Instr → Bool) (c : Config) (d : Nat) :
    (holdOps c d).countP p =
      d / c.chunk * ((if p .holdChunk then 1 else 0) + if p .timeWait then c.chunk else 0) +
        d % c.chunk * ((if p .holdUnit then 1 else 0) + if p .timeWait then 1 else 0) := by
  simp [holdOps, List.countP_flatten, List.countP_cons, List.countP_replicate, Nat.add_comm]

/-- R84: `D` units. -/
theorem countP_isTime_holdOps (c : Config) (d : Nat) : (holdOps c d).countP (·.isTime) = d := by
  rw [countP_holdOps]
  change d / c.chunk * (0 + c.chunk) + d % c.chunk * (0 + 1) = d
  rw [Nat.zero_add, Nat.mul_one, Nat.div_add_mod']

/-- R84: `D div CHUNK + D mod CHUNK` hold operations. -/
theorem countP_exec_holdOps (c : Config) (d : Nat) :
    (holdOps c d).countP (fun i => i.agent == some .exec) = d / c.chunk + d % c.chunk := by
  rw [countP_holdOps]
  change d / c.chunk * (1 + 0) + d % c.chunk * (1 + 0) = _
  rw [Nat.mul_one, Nat.mul_one]

end HoldOps

/-- R83: the operation enabled in a hold is the first that is left of it, or `PULSE_END` where none is. -/
theorem holdRest_cases {c : Config} {b : Block} (hw : c.WellFormed) (h : b.Inv c) (hp : b.phase = .hold) {i : Instr}
    (hi : i ∈ decodeSel (sel7 c b)) :
    (i = .pulseEnd ∧ b.holdRest c = [] ∧ b.holdOver = b) ∨
    (b.holdRest c = i :: (effectOf i c b).holdRest c ∧ (effectOf i c b).phase = .hold ∧
      (effectOf i c b).holdOver = b.holdOver) := by
  obtain ⟨-, -, -, -, -, -, hchunk, -⟩ := wellFormed_bounds hw
  have hrem := h.rem_nonneg
  rw [decodeSel_of_hold hw hp, List.mem_singleton] at hi
  by_cases hwait : 0 < b.wait
  · rw [if_pos hwait] at hi
    subst hi
    refine .inr ⟨?_, hp, holdOver_elapse hp hwait (h.tcnt_succ_lt_period hw hp hwait)⟩
    obtain ⟨w, hw⟩ := Nat.exists_eq_add_one_of_ne_zero hwait.ne'
    simp [Block.holdRest, effectOf, hp, hw, List.replicate_succ]
  have hdone : b.wait = 0 := Nat.eq_zero_of_not_pos hwait
  have waits : ∀ n : Nat, (n : Int) ≤ b.rem.toInt →
      (b.startWait n).holdRest c = List.replicate n .timeWait ++ holdOps c (b.rem.toInt.toNat - n) := by
    intro n hn
    have hleft : (b.startWait n).rem.toInt.toNat = b.rem.toInt.toNat - n := by
      have hsub : (b.startWait n).rem.toInt = b.rem.toInt - n := toInt_rem_heldFor hn
      omega
    rw [Block.holdRest, hleft, Block.startWait_wait]
  have now : b.holdRest c = holdOps c b.rem.toInt.toNat := by rw [Block.holdRest, hdone]; rfl
  rw [if_neg hwait, holdOp] at hi
  split_ifs at hi with hge hgt
  · subst hi
    refine .inr ⟨?_, hp, holdOver_startWait hdone hge⟩
    rw [now, holdOps_of_chunk_le hchunk (by omega)]
    exact congrArg (List.cons _) (waits c.chunk hge).symm
  · subst hi
    refine .inr ⟨?_, hp, holdOver_startWait hdone hgt⟩
    rw [now, holdOps_of_lt_chunk (by omega) (by omega)]
    exact congrArg (List.cons _) (waits 1 hgt).symm
  · subst hi
    have hzero : b.rem.toInt = 0 := by omega
    exact .inl ⟨rfl, by rw [now, hzero]; exact holdOps_zero c, holdOver_of_done hdone hzero⟩

/-! A run to `PULSE_END`, with edges between the operations -/

/-- A block with the first of the given edges latched, unless a request was pending (R63, R101). -/
def Block.latchFirst (edges : List Stim3) (b : Block) : Block :=
  { b with
    stepPend := b.stepPend || !edges.isEmpty
    dirLat := if b.stepPend then b.dirLat else (edges.head?.map (·.getLsbD 0)).getD b.dirLat }

theorem latchFirst_nil (b : Block) : b.latchFirst [] = b := by simp [Block.latchFirst]

theorem latchFirst_latchStep (b : Block) (w : Stim3) (edges : List Stim3) :
    (b.latchStep (w.getLsbD 0)).latchFirst edges = b.latchFirst (w :: edges) := by
  cases hs : b.stepPend <;> simp [Block.latchFirst, Block.latchStep, hs]

/-- The operations that are not the environment's. -/
abbrev notEnv (i : Instr) : Bool := i.agent != some .env

/-- A run of `n` steps, `PULSE_END` the last, that reads the given edges and takes the operations `is` besides; it leaves
the block given with the edges latched, and decides between two operations at most in its first step. -/
structure ReachesPulseEnd (c : Config) (s : State) (is : List Instr) (b : Block) (n : Nat) (edges : List Stim3) :
    Prop where
  edges_eq : edges = (s.inputs.take n).filter (·.getLsbD 1)
  steps_eq : n = is.length + 1 + edges.length
  ops_eq : ∃ before, operations c n s = before ++ [.pulseEnd] ∧ before.filter notEnv = is ∧ Instr.reset ∉ before
  end_eq : runSteps c n s = .next { s.consume c with inputs := s.inputs.drop n, block := b.latchFirst edges }

theorem arbitrates_of_hold {c : Config} (hw : c.WellFormed) {s : State} (hp : s.block.phase = .hold) :
    s.arbitrates c = false := by
  rw [State.arbitrates, State.candidates, decodeSel_of_hold hw hp, List.length_singleton]
  simp

theorem arbitrates_of_stimulus {c : Config} {s : State} {i : Instr} (h : decodeStim s.stimulus = some i) :
    s.arbitrates c = false := by
  rw [State.arbitrates, h]
  rfl

/-- Of a run's first step, what is left in the end besides the block. -/
theorem consume_after {c : Config} {s : State} (harb : (s.after c).arbitrates c = false) (n : Nat) (b : Block) :
    ({ (s.after c).consume c with inputs := (s.after c).inputs.drop n, block := b } : State) =
      { s.consume c with inputs := s.inputs.drop (n + 1), block := b } := by
  rw [State.consume, harb, State.after_inputs, List.drop_tail]
  rfl

/-- R52: a word that names no operation is no edge. -/
theorem no_edge_of_no_operation : ∀ w : Stim3, decodeStim w = none → w.getLsbD 1 = false := by decide

theorem edges_of_no_edge {s : State} (hedge : s.stimulus.getLsbD 1 = false) (n : Nat) :
    (s.inputs.take (n + 1)).filter (·.getLsbD 1) = (s.inputs.tail.take n).filter (·.getLsbD 1) := by
  cases hws : s.inputs with
  | nil => rw [List.take_nil, List.tail_nil, List.take_nil]
  | cons w rest =>
    have hword : s.stimulus = w := by rw [State.stimulus, hws]; rfl
    rw [hword] at hedge
    rw [List.take_succ_cons, List.filter_cons, hedge]
    rfl

namespace ReachesPulseEnd

variable {c : Config} {s : State} {is : List Instr} {b : Block} {n : Nat} {edges : List Stim3}

theorem last (hw : c.WellFormed) (hsel : s.selected c = .pulseEnd) (hedge : s.stimulus.getLsbD 1 = false) :
    ReachesPulseEnd c s [] s.block.leaveHold 1 [] where
  edges_eq := by rw [edges_of_no_edge hedge]; rfl
  steps_eq := rfl
  ops_eq := ⟨[], by rw [operations_succ hw, hsel]; rfl, rfl, List.not_mem_nil⟩
  end_eq := by
    rw [runSteps_succ_of_next (stepUnder_eq_after hw s), runSteps_zero, State.after, hsel, latchFirst_nil,
      List.drop_one]
    rfl

/-- An operation of the block's own before the run. -/
theorem cons_own (hw : c.WellFormed) (hedge : s.stimulus.getLsbD 1 = false) (henv : (s.selected c).agent ≠ some .env)
    (harb : (s.after c).arbitrates c = false) (h : ReachesPulseEnd c (s.after c) is b n edges) :
    ReachesPulseEnd c s (s.selected c :: is) b (n + 1) edges where
  edges_eq := by rw [edges_of_no_edge hedge, h.edges_eq]; rfl
  steps_eq := by rw [h.steps_eq, List.length_cons]; omega
  ops_eq := by
    obtain ⟨before, hops, hown, hreset⟩ := h.ops_eq
    have hne : Instr.reset ≠ s.selected c := by intro hr; rw [← hr] at henv; exact henv rfl
    refine ⟨s.selected c :: before, by rw [operations_succ hw, hops]; rfl, ?_,
      fun hmem => (List.mem_cons.1 hmem).elim hne hreset⟩
    rw [List.filter_cons_of_pos (p := notEnv) (bne_iff_ne.2 henv), hown]
  end_eq := by rw [runSteps_succ_of_next (stepUnder_eq_after hw s), h.end_eq, consume_after harb]

/-- An edge before the run. -/
theorem cons_edge (hw : c.WellFormed) {w : Stim3} {rest : List Stim3} (hws : s.inputs = w :: rest)
    (hedge : w.getLsbD 1 = true) (hsel : s.selected c = edgeAt (w.getLsbD 0))
    (harb : (s.after c).arbitrates c = false)
    (h : ReachesPulseEnd c (s.after c) is (b.latchStep (w.getLsbD 0)) n edges) :
    ReachesPulseEnd c s is b (n + 1) (w :: edges) where
  edges_eq := by
    rw [hws, List.take_succ_cons, List.filter_cons, if_pos hedge, h.edges_eq, State.after_inputs, hws]
    rfl
  steps_eq := by rw [h.steps_eq, List.length_cons]; omega
  ops_eq := by
    obtain ⟨before, hops, hown, hreset⟩ := h.ops_eq
    have henv : notEnv (edgeAt (w.getLsbD 0)) = false := by cases w.getLsbD 0 <;> rfl
    have hne : Instr.reset ≠ edgeAt (w.getLsbD 0) := by cases w.getLsbD 0 <;> nofun
    refine ⟨edgeAt (w.getLsbD 0) :: before, by rw [operations_succ hw, hops, hsel]; rfl, ?_,
      fun hmem => (List.mem_cons.1 hmem).elim hne hreset⟩
    rw [List.filter_cons_of_neg (p := notEnv) (by rw [henv]; exact Bool.false_ne_true), hown]
  end_eq := by
    rw [runSteps_succ_of_next (stepUnder_eq_after hw s), h.end_eq, latchFirst_latchStep, consume_after harb]

end ReachesPulseEnd

/-- R83, R84: a hold runs to its end, whatever edges are listed. -/
theorem exists_run_of_hold {c : Config} {s : State} (h : s.Inv c) (hp : s.block.phase = .hold)
    (hin : ∀ w ∈ s.inputs, w.getLsbD 2 = false) :
    ∃ n edges, ReachesPulseEnd c s (s.block.holdRest c) s.block.holdOver.leaveHold n edges := by
  have hw := h.wellFormed
  have hin' : ∀ w ∈ (s.after c).inputs, w.getLsbD 2 = false := fun w hmem => hin w (List.mem_of_mem_tail hmem)
  rcases selected_cases (c := c) hin with ⟨w, rest, hws, hedge, -, hsel⟩ | ⟨hedge, -, hmem⟩
  · have hlatch : (s.after c).block = s.block.latchStep (w.getLsbD 0) := by
      rw [State.after_block, hsel, effectOf_edgeAt]
    have hp' : (s.after c).block.phase = .hold := by rw [hlatch]; exact hp
    have hrest : (s.after c).block.holdRest c = s.block.holdRest c := by rw [hlatch]; rfl
    have hlen : (s.after c).inputs.length < s.inputs.length := by rw [State.after_inputs, hws]; exact Nat.lt_succ_self _
    obtain ⟨n, edges, run⟩ := exists_run_of_hold h.after hp' hin'
    rw [hrest, hlatch] at run
    exact ⟨n + 1, w :: edges, run.cons_edge hw hws hedge hsel (arbitrates_of_hold hw hp')⟩
  · rcases holdRest_cases hw h.block hp hmem with ⟨hsel, hrest, hover⟩ | ⟨hrest, hp', hover⟩
    · rw [hrest, hover]
      exact ⟨1, [], .last hw hsel hedge⟩
    · have hlen : (s.after c).inputs.length ≤ s.inputs.length := by rw [State.after_inputs, List.length_tail]; omega
      have hshort : (s.block.holdRest c).length = ((s.after c).block.holdRest c).length + 1 := by rw [hrest]; rfl
      obtain ⟨n, edges, run⟩ := exists_run_of_hold h.after hp' hin'
      rw [State.after_block, hover] at run
      rw [hrest]
      exact ⟨n + 1, edges, run.cons_own hw hedge (of_mem_decodeSel hw hmem).2 (arbitrates_of_hold hw hp')⟩
termination_by (s.block.holdRest c).length + s.inputs.length
decreasing_by
  · rw [hrest]; omega
  · omega

/-! The pulse of a pending tick -/

/-- R98: the tick is served, alone or with the choice in its favour. -/
theorem selected_of_tick {c : Config} {s : State} (hw : c.WellFormed) (hp : s.block.phase = .idle)
    (ht : s.block.tickPend = true) (hfirst : s.block.stepPend = true → s.tieBreak = .tickFirst)
    (hstim : decodeStim s.stimulus = none) : s.selected c = .pulseStart := by
  have hcand : s.candidates c =
      (if s.block.stepPend then [(ExecOp.step (inc c s.block.dirLat)).instr] else []) ++ [.pulseStart] := by
    rw [State.candidates, decodeSel_eq_dueOps hw, dueOps_of_idle hp, ht]
    cases s.block.stepPend <;> rfl
  cases hs : s.block.stepPend with
  | false => simp [State.selected, hstim, hcand, hs, arbitrate]
  | true => simp [State.selected, hstim, hcand, hs, hfirst hs, arbitrate]

/-- The block at the end of the pulse of a pending tick, `d` units long, no edge having come. -/
def Block.pulsed (d : Nat) (b : Block) : Block :=
  { b with tickPend := false, servoOut := false, phase := .idle, rem := 0, wait := 0, tcnt := d }

/-- R79, R84: the step that starts the pulse, and the run of its hold. -/
theorem exists_run_of_pulse {c : Config} {s : State} (h : s.Inv c) (hp : s.block.phase = .idle)
    (ht : s.block.tickPend = true) (hfirst : s.block.stepPend = true → s.tieBreak = .tickFirst)
    (hstim : decodeStim s.stimulus = none) (hin : ∀ w ∈ s.inputs, w.getLsbD 2 = false) :
    s.selected c = .pulseStart ∧
    ∃ n edges, ReachesPulseEnd c (s.after c) (holdOps c (s.block.pw.toInt + c.pulseOffset).toNat)
        (s.block.pulsed (s.block.pw.toInt + c.pulseOffset).toNat) n edges ∧
      ReachesPulseEnd c s (.pulseStart :: holdOps c (s.block.pw.toInt + c.pulseOffset).toNat)
        (s.block.pulsed (s.block.pw.toInt + c.pulseOffset).toNat) (n + 1) edges := by
  have hw := h.wellFormed
  have hsel := selected_of_tick hw hp ht hfirst hstim
  have hblock : (s.after c).block = s.block.enterHold c := by rw [State.after_block, hsel]; rfl
  have hp' : (s.after c).block.phase = .hold := by rw [hblock]; rfl
  have hrem : (s.block.enterHold c).rem.toInt = s.block.pw.toInt + c.pulseOffset :=
    h.block.toInt_toWord_holdRequest hw
  have hrest : (s.block.enterHold c).holdRest c = holdOps c (s.block.pw.toInt + c.pulseOffset).toNat := by
    rw [Block.holdRest, hrem]
    rfl
  have hover : (s.block.enterHold c).holdOver.leaveHold =
      s.block.pulsed (s.block.pw.toInt + c.pulseOffset).toNat := by
    rw [Block.holdOver, hrem, Block.enterHold_tcnt, h.block.tick_fresh hp ht]
    simp [Block.leaveHold, Block.enterHold, Block.pulsed, servoInactive]
  have hedge := no_edge_of_no_operation s.stimulus hstim
  obtain ⟨n, edges, run⟩ := exists_run_of_hold h.after hp' fun w hmem => hin w (List.mem_of_mem_tail hmem)
  rw [hblock, hrest, hover] at run
  have whole := run.cons_own hw hedge (by rw [hsel]; nofun) (arbitrates_of_hold hw hp')
  rw [hsel] at whole
  exact ⟨hsel, n, edges, run, whole⟩

/-- Operations counted that are none of the environment's. -/
theorem countP_filter_notEnv {p : Instr → Bool} (hp : ∀ i, p i = true → notEnv i = true) (is : List Instr) :
    (is.filter notEnv).countP p = is.countP p := by
  rw [List.countP_filter]
  refine List.countP_congr fun i _ => ?_
  rw [Bool.and_eq_true]
  exact and_iff_left_of_imp (hp i)

theorem notEnv_of_isTime (i : Instr) (hi : i.isTime = true) : notEnv i = true := by
  rcases isTime_cases hi with rfl | rfl <;> rfl

theorem notEnv_of_exec (i : Instr) (hi : (i.agent == some .exec) = true) : notEnv i = true := by
  rw [notEnv, eq_of_beq hi]
  rfl

namespace ReachesPulseEnd

variable {c : Config} {s : State} {is : List Instr} {b : Block} {n : Nat} {edges : List Stim3}

theorem filter_eq (h : ReachesPulseEnd c s is b n edges) :
    (operations c n s).filter notEnv = is ++ [.pulseEnd] := by
  obtain ⟨before, hops, hown, -⟩ := h.ops_eq
  rw [hops, List.filter_append, hown]
  rfl

theorem getLast?_eq (h : ReachesPulseEnd c s is b n edges) : (operations c n s).getLast? = some .pulseEnd := by
  obtain ⟨before, hops, -⟩ := h.ops_eq
  rw [hops, List.getLast?_concat]

theorem countP_eq (h : ReachesPulseEnd c s is b n edges) {p : Instr → Bool} (hp : ∀ i, p i = true → notEnv i = true) :
    (operations c n s).countP p = is.countP p + if p .pulseEnd then 1 else 0 := by
  rw [← countP_filter_notEnv hp, h.filter_eq, List.countP_append, List.countP_singleton]

end ReachesPulseEnd

/-- Settles O41: the run of the pulse, its operations counted. -/
theorem pulseDecomposesIntoChunksAndUnits : Obligations.PulseDecomposesIntoChunksAndUnits := by
  intro c s h hp ht hfirst hstim hin d q r
  obtain ⟨-, n, edges, -, run⟩ := exists_run_of_pulse h hp ht hfirst hstim hin
  refine ⟨n + 1, edges, run.edges_eq, ?_, ?_, run.getLast?_eq, ?_, ?_, run.end_eq⟩
  · rw [run.steps_eq, List.length_cons, length_holdOps]
  · rw [run.filter_eq]
    simp only [holdOps, List.cons_append, List.nil_append]
    rfl
  · rw [unitsElapsed, run.countP_eq notEnv_of_isTime, List.countP_cons, countP_isTime_holdOps]
    rfl
  · rw [run.countP_eq notEnv_of_exec, List.countP_cons, countP_exec_holdOps]
    rfl

/-! What the environment observes of a pulse (R125) -/

theorem observe_succ {c : Config} (hw : c.WellFormed) (n u : Nat) (s : State) :
    observe c (n + 1) u s =
      (lineWrites (s.selected c) (s.after c).block).map (fun w => (u, w)) ++
        observe c n (if (s.selected c).isTime then u + 1 else u) (s.after c) := by
  simp only [observe, stepUnder_eq_after hw]

/-- A run whose operations write no line up to `PULSE_END`. -/
theorem observe_to_pulseEnd {c : Config} (hw : c.WellFormed) {before : List Instr} {n : Nat} {s : State} (u : Nat)
    (hops : operations c n s = before ++ [.pulseEnd]) (hquiet : ∀ i ∈ before, ∀ b, lineWrites i b = []) :
    observe c n u s = [(u + before.countP (·.isTime), .servoOut false)] := by
  induction before generalizing n s u with
  | nil =>
    obtain ⟨hsel, m, rfl, hrest⟩ := operations_eq_cons hw hops
    cases m with
    | zero =>
      rw [observe_succ hw, State.after_block, hsel]
      rfl
    | succ m =>
      rw [operations_succ hw] at hrest
      cases hrest
  | cons i before ih =>
    obtain ⟨hsel, m, rfl, hrest⟩ := operations_eq_cons hw hops
    obtain ⟨hi, hquiet⟩ := List.forall_mem_cons.1 hquiet
    rw [observe_succ hw, hsel, hi, List.map_nil, List.nil_append, ih _ hrest hquiet, List.countP_cons]
    split_ifs
    · rw [Nat.add_right_comm, Nat.add_assoc]
    · rfl

theorem lineWrites_of_edge {i : Instr} (henv : notEnv i = false) (hreset : i ≠ .reset) (b : Block) :
    lineWrites i b = [] := by
  cases i with
  | edge0 | edge1 => rfl
  | reset => exact absurd rfl hreset
  | _ => cases henv

/-- Settles O42: from `PULSE_START` to `PULSE_END` there are edges, waits and time, which write no line. -/
theorem observedPulseLengthIsTheSampledWidth : Obligations.ObservedPulseLengthIsTheSampledWidth := by
  intro c s u h hp ht hfirst hstim hin d
  have hw := h.wellFormed
  obtain ⟨-, -, -, hmin, -, -, -, hoff, -⟩ := wellFormed_bounds hw
  have lo := h.block.pw_ge_min
  obtain ⟨hsel, n, edges, run, -⟩ := exists_run_of_pulse h hp ht hfirst hstim hin
  obtain ⟨before, hops, hown, hreset⟩ := run.ops_eq
  have hquiet : ∀ i ∈ before, ∀ b, lineWrites i b = [] := by
    intro i hi b
    cases henv : notEnv i with
    | false => exact lineWrites_of_edge henv (by rintro rfl; exact hreset hi) b
    | true =>
      have hmem : i ∈ holdOps c d := hown ▸ List.mem_filter.2 ⟨hi, henv⟩
      rcases mem_holdOps hmem with rfl | rfl | rfl <;> rfl
  have hunits : before.countP (·.isTime) = d := by
    rw [← countP_filter_notEnv notEnv_of_isTime, hown, countP_isTime_holdOps]
  have hops' : operations c (n + 1) s = .pulseStart :: before ++ [.pulseEnd] := by
    rw [operations_succ hw, hsel, hops]
    rfl
  refine ⟨Int.toNat_of_nonneg (by omega), n + 1, by rw [hops']; rfl, by rw [hops', List.getLast?_concat], ?_⟩
  rw [observe_succ hw, hsel, observe_to_pulseEnd hw _ hops hquiet, hunits, State.after_block, hsel]
  rfl

/-! The return to the same state (R86) -/

/-- The operations of a run in two parts. -/
theorem operations_add {c : Config} {m : Nat} {s t : State} (h : runSteps c m s = .next t) (n : Nat) :
    operations c (m + n) s = operations c m s ++ operations c n t := by
  induction m generalizing s with
  | zero => cases h; rw [Nat.zero_add]; rfl
  | succ m ih =>
    obtain ⟨u, hsu, hut⟩ := runSteps_succ_eq_next h
    rw [Nat.succ_add, operations_succ_of_next hsu, operations_succ_of_next hsu, ih hut]
    rfl

/-- With no stimulus and no request pending, time passes up to the next tick. -/
theorem run_of_no_request {c : Config} {s : State} (h : s.Inv c) (hin : s.inputs = []) (hp : s.block.phase = .idle)
    (ht : s.block.tickPend = false) (hs : s.block.stepPend = false) (n : Nat) (hn : s.block.tcnt + n ≤ c.period) :
    runSteps c n s = .next { s with block := s.block.idleFor c n } ∧
      operations c n s = List.replicate n .timeIdle := by
  have hw := h.wellFormed
  have hlt := h.block.tcnt_lt_period
  induction n with
  | zero => exact ⟨by simp [runSteps, Block.idleFor, hlt.ne, ← ht], rfl⟩
  | succ n ih =>
    have hshort : s.block.tcnt + n < c.period := by omega
    obtain ⟨hrun, hops⟩ := ih hshort.le
    have ht' : (s.block.idleFor c n).tickPend = false := decide_eq_false hshort.ne
    have unit := stepUnder_of_no_request (s := { s with block := s.block.idleFor c n }) hw hin hp ht' hs
    have last := operations_of_no_request (s := { s with block := s.block.idleFor c n }) hw hin hp ht' hs
    refine ⟨?_, by rw [operations_add hrun, hops, last, List.replicate_succ']⟩
    rw [runSteps_succ_of_run hrun unit, elapse_idleFor hp hshort]

/-- The pulse's own block comes back when the rest of its period has passed. -/
theorem pulsed_idleFor {c : Config} {b : Block} (h : b.Inv c) (hp : b.phase = .idle) (ht : b.tickPend = true)
    {d : Nat} (hd : d ≤ c.period) : (b.pulsed d).idleFor c (c.period - d) = b := by
  obtain ⟨hwait, hrem⟩ := h.idle_done hp
  have htcnt := h.tick_fresh hp ht
  have hservo : b.servoOut = false := by
    by_contra hservo
    have hhold := h.servo_iff.1 (Bool.not_eq_false _ ▸ hservo)
    rw [hp] at hhold
    cases hhold
  have hsum : d + (c.period - d) = c.period := by omega
  obtain ⟨pw, homeOut, servoOut, stepPend, dirLat, tickPend, phase, rem, wait, tcnt⟩ := b
  simp only at hp ht hwait hrem htcnt hservo
  subst hp ht hwait hrem htcnt hservo
  simp [Block.idleFor, Block.pulsed, hsum]

/-- A step that serves a tick alone with no stimulus listed uses nothing up. -/
theorem consume_of_tick_alone {c : Config} {s : State} (hw : c.WellFormed) (hp : s.block.phase = .idle)
    (ht : s.block.tickPend = true) (hs : s.block.stepPend = false) (hin : s.inputs = []) : s.consume c = s := by
  have harb : s.arbitrates c = false := by
    rw [State.arbitrates, State.candidates, decodeSel_eq_dueOps hw, dueOps_of_idle hp, hs, ht]
    simp
  have htail : s.inputs.tail = s.inputs := by rw [hin]; rfl
  simp [State.consume, harb, htail]

/-- R78, R86: with no stimulus, a period on from a pending tick the machine is in the same state, one pulse over. -/
theorem exists_return {c : Config} {s : State} (h : s.Inv c) (hp : s.block.phase = .idle)
    (ht : s.block.tickPend = true) (hs : s.block.stepPend = false) (hin : s.inputs = []) :
    ∃ n, runSteps c n s = .next s ∧ unitsElapsed c n s = c.period ∧
      (operations c n s).count .pulseStart = 1 ∧ (operations c n s).count .pulseEnd = 1 := by
  have hw := h.wellFormed
  have hstim : decodeStim s.stimulus = none := by rw [State.stimulus, hin]; decide
  obtain ⟨-, n, edges, -, run⟩ := exists_run_of_pulse h hp ht (by rw [hs]; nofun) hstim (by rw [hin]; nofun)
  have hd : (s.block.pw.toInt + c.pulseOffset).toNat < c.period := by
    obtain ⟨-, -, -, hmin, -, -, -, hoff, -, hperiod, -⟩ := wellFormed_bounds hw
    have lo := h.block.pw_ge_min
    have hi := h.block.pw_le_max
    omega
  generalize (s.block.pw.toInt + c.pulseOffset).toNat = d at run hd
  have hedges : edges = [] := by rw [run.edges_eq, hin, List.take_nil]; rfl
  have hcons := consume_of_tick_alone hw hp ht hs hin
  have hpulse : runSteps c (n + 1) s = .next { s with block := s.block.pulsed d } := by
    rw [run.end_eq, hedges, latchFirst_nil, hcons, hin, List.drop_nil, ← hin]
  obtain ⟨hrun, hidle⟩ := run_of_no_request (runSteps_inv h hpulse) hin rfl rfl hs (c.period - d)
    (Nat.add_sub_cancel' hd.le).le
  have counts : ∀ {p : Instr → Bool}, (∀ i, p i = true → notEnv i = true) →
      (operations c (n + 1 + (c.period - d)) s).countP p =
        (holdOps c d).countP p + (if p .pulseStart then 1 else 0) + (if p .pulseEnd then 1 else 0) +
          if p .timeIdle then c.period - d else 0 := by
    intro p hp
    rw [operations_add hpulse, hidle, List.countP_append, run.countP_eq hp, List.countP_cons, List.countP_replicate]
  refine ⟨n + 1 + (c.period - d), ?_, ?_, ?_, ?_⟩
  · rw [runSteps_add hpulse, hrun]
    simp only [pulsed_idleFor h.block hp ht hd.le]
  · rw [unitsElapsed, counts notEnv_of_isTime, countP_isTime_holdOps]
    exact Nat.add_sub_cancel' hd.le
  · rw [List.count, counts (fun i hi => by rw [eq_of_beq hi]; rfl), count_holdOps (by decide)]
    rfl
  · rw [List.count, counts (fun i hi => by rw [eq_of_beq hi]; rfl), count_holdOps (by decide)]
    rfl

/-- Settles O46: the timer counts the units from pulse to pulse, the next pulse comes, and after an undisturbed one the
rest of its period leads back. -/
theorem pulsesRepeatEveryPeriod : Obligations.PulsesRepeatEveryPeriod :=
  ⟨fun _ _ _ _ _ h hi hops hbetween => unitsElapsed_of_period h hi hops hbetween,
    fun _ _ h hsel hin => exists_period h hsel hin, fun _ _ h hp ht hs hin => exists_return h hp ht hs hin⟩

end Sys2Proof.Machine
end

section
/-! What comes next (60_exceptions.md): what the selection word of a block enables and when time passes (R96, R97), the
two orders of simultaneous requests (R98), a next step in every state (R110). -/

namespace Sys2Proof.Machine

/-! What the selection word of a block enables -/

/-- Settles O12: the word enables what is enabled, which says each condition. -/
theorem selectionWordEnablesByState : Obligations.SelectionWordEnablesByState := by
  intro c b hw
  have exec := mem_decodeSel_instr hw b
  exact ⟨mem_decodeSel_step c b false, mem_decodeSel_step c b true,
    (exec .pulseStart).trans (enabled_pulseStart c b),
    (mem_decodeSel_timeIdle hw b).trans (enabled_timeIdle c b),
    (mem_decodeSel_timeWait hw b).trans (enabled_timeWait c b),
    (exec .holdChunk).trans (enabled_holdChunk c b),
    (exec .holdUnit).trans (enabled_holdUnit c b),
    (exec .pulseEnd).trans (enabled_pulseEnd c b)⟩

theorem agent_timeOp (b : Block) : (timeOp b).agent = some .clk := by
  cases hp : b.phase with
  | idle => rw [timeOp_of_idle hp]; rfl
  | hold => rw [timeOp_of_hold hp]; rfl

theorem isTime_timeOp (b : Block) : (timeOp b).isTime = true := by
  rw [Instr.isTime, agent_timeOp]
  rfl

/-- R97: `TIME` is enabled where nothing is due. -/
theorem exists_time_mem_decodeSel_iff {c : Config} (hw : c.WellFormed) (b : Block) :
    (∃ i ∈ decodeSel (sel7 c b), i.isTime = true) ↔ dueOps c b = [] := by
  rw [decodeSel_eq_dueOps hw]
  split_ifs with hdue
  · exact iff_of_true ⟨timeOp b, List.mem_singleton_self _, isTime_timeOp b⟩ hdue
  · refine iff_of_false ?_ hdue
    rintro ⟨i, hi, htime⟩
    obtain ⟨o, -, rfl⟩ := List.mem_map.1 hi
    rw [o.isTime_instr] at htime
    cases htime

/-- R96: an operation of `EXEC` is enabled where one is due. -/
theorem exists_exec_mem_decodeSel_iff {c : Config} (hw : c.WellFormed) (b : Block) :
    (∃ i ∈ decodeSel (sel7 c b), i.agent = some .exec) ↔ dueOps c b ≠ [] := by
  rw [decodeSel_eq_dueOps hw]
  split_ifs with hdue
  · refine iff_of_false ?_ (not_not.2 hdue)
    rintro ⟨i, hi, hexec⟩
    rw [List.mem_singleton.1 hi, agent_timeOp] at hexec
    cases hexec
  · obtain ⟨o, ho⟩ := List.exists_mem_of_ne_nil _ hdue
    exact iff_of_true ⟨o.instr, List.mem_map_of_mem ho, o.agent_instr⟩ hdue

/-- Settles O14: both sides say that nothing of `EXEC` is due. -/
theorem timePassesOnlyWhenNoExecOperationIsEnabled : Obligations.TimePassesOnlyWhenNoExecOperationIsEnabled := by
  intro c b hw
  rw [exists_time_mem_decodeSel_iff hw, exists_exec_mem_decodeSel_iff hw, not_not]

/-- Settles O20: the operation a step selects is enabled. -/
theorem everyStateHasANextStep : Obligations.EveryStateHasANextStep := by
  refine ⟨fun c s hw => ⟨s.after c, stepUnder_eq_after hw s⟩, fun s => ⟨s.after Config.built, ?_⟩⟩
  rw [step_eq_stepUnder_built]
  exact stepUnder_eq_after built_wellFormed s

/-! Both requests pending (R98) -/

/-- R64, R65: the intermediate of the step operation of a raw direction. -/
theorem stepTarget_inc_level (c : Config) (d : Level) (b : Block) :
    stepTarget c (inc c d) b = if d = c.dirDecLevel then b.pw.toInt - c.resolution else b.pw.toInt + c.resolution := by
  cases h : inc c d with
  | false => rw [if_pos ((inc_eq_false_iff c d).1 h)]; rfl
  | true => rw [if_neg ((inc_eq_true_iff c d).1 h)]; rfl

section BothRequests

variable {c : Config} {s : State} (hw : c.WellFormed) (hp : s.block.phase = .idle) (hs : s.block.stepPend = true)
  (ht : s.block.tickPend = true)
include hw hp hs ht

theorem candidates_of_both_requests :
    s.candidates c = [(ExecOp.step (inc c s.block.dirLat)).instr, .pulseStart] := by
  rw [State.candidates, decodeSel_eq_dueOps hw, dueOps_of_idle hp, hs, ht]
  rfl

/-- R98: the step is served with the choice in its favour. -/
theorem selected_of_step_first (hstim : decodeStim s.stimulus = none) (hfirst : s.tieBreak = .stepFirst) :
    s.selected c = (ExecOp.step (inc c s.block.dirLat)).instr := by
  simp [State.selected, hstim, candidates_of_both_requests hw hp hs ht, hfirst, arbitrate]

end BothRequests

/-- Settles O16: serving the step moves `PW` and leaves the tick; entering the hold samples `PW` and leaves the step. -/
theorem simultaneousRequestsAdmitBothOrders : Obligations.SimultaneousRequestsAdmitBothOrders := by
  intro c s hw hp hs ht hstim
  obtain ⟨-, hlt, -⟩ := wellFormed_bounds hw
  refine ⟨?_, ⟨_, stepUnder_eq_after hw _, ?_⟩, ⟨_, stepUnder_eq_after hw _, ?_⟩⟩
  · rw [← step_inc_instr]
    exact candidates_of_both_requests hw hp hs ht
  · rw [State.after_block, selected_of_step_first (s := { s with tieBreak := .stepFirst }) hw hp hs ht hstim rfl,
      effectOf_step, Block.serveStep_pw, toInt_toWord_clamp hw, clamp_eq_max_min hlt, stepTarget_inc_level]
    exact ⟨rfl, rfl, ht, hp, rfl, rfl⟩
  · rw [State.after_block, selected_of_tick (s := { s with tieBreak := .tickFirst }) hw hp ht (fun _ => rfl) hstim]
    exact ⟨hs, rfl, rfl, rfl, rfl, rfl, toInt_toWord_holdRequest hw⟩

/-! The operations between two units (R97) -/

/-- How many operations the block can take before a unit passes, no edge coming: none while a wait runs, else one for a
pending step, two for a pending tick, whose service leaves a hold with no wait running, and one in such a hold. -/
def urgentBudget (b : Block) : Nat :=
  if b.wait = 0 then b.stepPend.toNat + 2 * b.tickPend.toNat + (b.phase == .hold).toNat else 0

section UrgentBudget

variable {c : Config} {b : Block}

theorem urgentBudget_of_waits (hwait : 0 < b.wait) : urgentBudget b = 0 := if_neg hwait.ne'

theorem urgentBudget_of_idle (h : b.Inv c) (hp : b.phase = .idle) :
    urgentBudget b = b.stepPend.toNat + 2 * b.tickPend.toNat := by
  obtain ⟨hwait, -⟩ := h.idle_done hp
  simp [urgentBudget, hwait, hp]

theorem urgentBudget_of_hold (hp : b.phase = .hold) (hwait : b.wait = 0) :
    urgentBudget b = b.stepPend.toNat + 2 * b.tickPend.toNat + 1 := by
  simp [urgentBudget, hwait, hp]

/-- No tick is pending in a hold, so the worst block is idle with both requests pending. -/
theorem urgentBudget_le (h : b.Inv c) : urgentBudget b ≤ 3 := by
  have hstep := b.stepPend.toNat_le
  have htick := b.tickPend.toNat_le
  cases hp : b.phase with
  | idle =>
    rw [urgentBudget_of_idle h hp]
    omega
  | hold =>
    by_cases hwait : b.wait = 0
    · rw [urgentBudget_of_hold hp hwait, h.hold_no_tick hp, Bool.toNat_false]
      omega
    · rw [urgentBudget_of_waits (Nat.pos_of_ne_zero hwait)]
      omega

theorem urgentBudget_step_lt (hw : c.WellFormed) (h : b.Inv c) {increment : Bool}
    (he : enabled c b (ExecOp.step increment).instr = true) :
    urgentBudget (effectOf (ExecOp.step increment).instr c b) < urgentBudget b := by
  obtain ⟨hp, hs, -⟩ := (enabled_step c b increment).1 he
  have h' := h.effectOf hw he
  rw [effectOf_step] at h' ⊢
  rw [urgentBudget_of_idle h' hp, urgentBudget_of_idle h hp, hs]
  simp

theorem urgentBudget_startWait_lt {n : Nat} (hn : 1 ≤ n) (hp : b.phase = .hold) (hwait : b.wait = 0) :
    urgentBudget (b.startWait n) < urgentBudget b := by
  rw [urgentBudget_of_waits (b := b.startWait n) hn, urgentBudget_of_hold hp hwait]
  exact Nat.succ_pos _

/-- Each operation of `EXEC` uses some of it up. -/
theorem urgentBudget_effectOf_lt (hw : c.WellFormed) (h : b.Inv c) {o : ExecOp} (he : enabled c b o.instr = true) :
    urgentBudget (effectOf o.instr c b) < urgentBudget b := by
  cases o with
  | stepDec => exact urgentBudget_step_lt (increment := false) hw h he
  | stepInc => exact urgentBudget_step_lt (increment := true) hw h he
  | pulseStart =>
    obtain ⟨hp, ht⟩ := (enabled_pulseStart c b).1 he
    have start : effectOf (ExecOp.pulseStart).instr c b = b.enterHold c := rfl
    rw [start, urgentBudget_of_hold (b.enterHold_phase c) (b.enterHold_wait c), urgentBudget_of_idle h hp, ht]
    simp
  | holdChunk =>
    obtain ⟨-, -, -, -, -, -, hchunk, -⟩ := wellFormed_bounds hw
    obtain ⟨hp, hwait, -⟩ := (enabled_holdChunk c b).1 he
    exact urgentBudget_startWait_lt hchunk hp hwait
  | holdUnit =>
    obtain ⟨hp, hwait, -⟩ := (enabled_holdUnit c b).1 he
    exact urgentBudget_startWait_lt le_rfl hp hwait
  | pulseEnd =>
    obtain ⟨hp, hwait, -⟩ := (enabled_pulseEnd c b).1 he
    have h' : b.leaveHold.Inv c := h.effectOf hw he
    have ended : effectOf (ExecOp.pulseEnd).instr c b = b.leaveHold := rfl
    rw [ended, urgentBudget_of_idle h' b.leaveHold_phase, urgentBudget_of_hold hp hwait]
    exact Nat.lt_succ_self _

end UrgentBudget

/-- R97: with no stimulus a step takes a unit of time or an operation of `EXEC` that is enabled. -/
theorem selected_time_or_exec {c : Config} {s : State} (hw : c.WellFormed) (hin : s.inputs = []) :
    (s.selected c).isTime = true ∨ ∃ o : ExecOp, s.selected c = o.instr ∧ enabled c s.block o.instr = true := by
  have hstim : decodeStim s.stimulus = none := by rw [State.stimulus, hin]; decide
  have hsel : s.selected c ∈ s.candidates c := selected_mem_candidates hstim
  rw [State.candidates, decodeSel_eq_dueOps hw] at hsel
  split_ifs at hsel with hdue
  · rw [List.mem_singleton.1 hsel]
    exact .inl (isTime_timeOp s.block)
  · obtain ⟨o, ho, heq⟩ := List.mem_map.1 hsel
    exact .inr ⟨o, heq.symm, (mem_dueOps c s.block o).1 ho⟩

/-- R97: with no stimulus a unit passes as soon as the budget is used up. -/
theorem exists_time_of_urgentBudget_le {c : Config} (n : Nat) {s : State} (h : s.Inv c) (hin : s.inputs = [])
    (hn : urgentBudget s.block ≤ n) : ∃ i ∈ operations c (n + 1) s, i.isTime = true := by
  have hw := h.wellFormed
  induction n generalizing s with
  | zero =>
    rw [operations_succ hw]
    rcases selected_time_or_exec hw hin with htime | ⟨o, -, he⟩
    · exact ⟨_, List.mem_cons_self, htime⟩
    · exact absurd (urgentBudget_effectOf_lt hw h.block he) (by omega)
  | succ n ih =>
    rw [operations_succ hw]
    rcases selected_time_or_exec hw hin with htime | ⟨o, hsel, he⟩
    · exact ⟨_, List.mem_cons_self, htime⟩
    · have hlt := urgentBudget_effectOf_lt hw h.block he
      obtain ⟨i, hi, htime⟩ := ih h.after (by rw [State.after_inputs, hin]; rfl)
        (by rw [State.after_block, hsel]; omega)
      exact ⟨i, List.mem_cons_of_mem _ hi, htime⟩

/-- Settles O47: in a state of the invariant at most three operations come before a unit. -/
theorem timePassesWithinFourOperations : Obligations.TimePassesWithinFourOperations :=
  fun _ _ h hin => exists_time_of_urgentBudget_le 3 h hin (urgentBudget_le h.block)

end Sys2Proof.Machine
end

section
/-! Reset (70_reset_and_hazards.md): every element at its reset value (R32, R111), and the reset bit of a stimulus word
before everything else (R112). -/

namespace Sys2Proof.Machine

/-! The reset values -/

/-- R9: the home extreme, by the polarity. -/
theorem homeValue_eq_ite (c : Config) :
    c.homeValue = if c.homePolarity = .homeAtMin then c.pwmMin else c.pwmMax := by
  unfold Config.homeValue
  cases c.homePolarity <;> rfl

/-- R111: the effect of `RESET` does not depend on the block. -/
theorem effectOf_reset (c : Config) (b : Block) : effectOf .reset c b = Block.atReset c := rfl

/-- Settles O21: `RESET` is enabled in every state, its effect is the block of R32, and `PW` holds the home value as it
lies in the range. -/
theorem resetPutsEveryElementAtItsResetValue : Obligations.ResetPutsEveryElementAtItsResetValue := by
  refine ⟨fun c s hw => ?_, decodeStim_table true⟩
  obtain ⟨t, ht, run⟩ := runs_of_enabled hw (enabled_reset c s.block) (effectOf_reset c s.block)
  exact ⟨toWord c.homeValue, t, (toInt_toWord_homeValue hw).trans (homeValue_eq_ite c), ht, run⟩

/-! The reset bit -/

/-- R52: the words `1xx`, by their reset bit. -/
theorem decodeStim_of_rst {w : Stim3} (hrst : w.getLsbD 2 = true) : decodeStim w = some .reset := by
  rw [decodeStim_bits, if_pos hrst]

/-- Settles O22: a word with `rst` set names `RESET` whatever its other bits, and `RESET` is enabled in every state. -/
theorem resetOverridesEverything : Obligations.ResetOverridesEverything := by
  intro c s w rest hw hin hrst
  have hstim : decodeStim s.stimulus = some .reset := by
    rw [State.stimulus, hin]
    exact decodeStim_of_rst hrst
  rw [stepUnder_of_stimulus hw hstim (enabled_reset c s.block), effectOf_reset, hin]
  rfl

end Sys2Proof.Machine
end
